-- ==== Sys2Proof/Word.lean ====
section
/-! DEFINITION. The two word sizes of the codec: a byte of the wire (R5) and a 32-bit unsigned field (R6). -/

namespace Sys2Proof

/-- One byte of the wire, 0 to 255 (R5). -/
abbrev Byte := BitVec 8

/-- A 32-bit unsigned field, register or counter (R6). -/
abbrev Word := BitVec 32

end Sys2Proof
end

