-- ==== Sys2Proof/Syntax.lean ====
section
/-! DEFINITION. The instructions: one constructor per row of spec/opcode_table.json, and the operands an encoder command
is presented with (R31). -/

namespace Sys2Proof

/-- The instructions. The first three are the wire messages the decoder executes (R60 to R63, R121 to R123): their fields
are 32-bit unsigned, and a SEND has no length operand because its length is the number of its payload bytes (R63). The
other six are the encoder's commands (R91 to R96): their integers are mathematical integers, which may lie outside 32
bits (R31); `D` marks the dispatching form. -/
inductive Instr where
  | request (objectId instanceNo start length : Word)
  | send (objectId instanceNo start : Word) (payload : List Byte)
  | command (commandCode instanceNo : Word)
  | encRequest (objectId instanceNo start length : Int)
  | encRequestD (objectId instanceNo start length : Int)
  | encSend (objectId instanceNo start : Int) (payload : List Byte)
  | encSendD (objectId instanceNo start : Int) (payload : List Byte)
  | encCommand (commandCode instanceNo : Int)
  | encCommandD (commandCode instanceNo : Int)
  deriving DecidableEq, Repr

/-- What stands at the command port beside the selector (R31). `first` is the objectId of a REQUEST or SEND and the
commandCode of a COMMAND. A kind reads only the operands it uses; the default 0 of the software call (R71) is what the
driver of the port supplies for an operand a caller omits. -/
structure Operands where
  first : Int := 0
  instanceNo : Int := 0
  start : Int := 0
  length : Int := 0
  payload : List Byte := []
  deriving DecidableEq, Repr

/-- What an instruction looks like where the hardware meets it: bytes on the wire for the decoder, a 3-bit selector
`(cmd_kind << 1) | dispatch` with operands at the command port for the encoder (R72, R75). -/
inductive Presented where
  | wire (bytes : List Byte)
  | port (selector : BitVec 3) (operands : Operands)
  deriving DecidableEq, Repr

end Sys2Proof
end

