-- ==== Sys2Proof/WellFormed.lean ====
section
/-! DEFINITION. Which instructions exist as words of the hardware. -/

namespace Sys2Proof

/-- A SEND's payload is counted by its 32-bit length field, so it has fewer than 2^32 bytes (R63, R64). Nothing else is
ill-formed: every 32-bit field value is legal (R68), and an encoder command may be given any integers and any payload,
its range errors being its own result (R31, R90). -/
def Instr.wellFormed : Instr → Bool
  | .send _ _ _ payload => decide (payload.length < 2 ^ 32)
  | .request .. | .command .. | .encRequest .. | .encRequestD .. | .encSend .. | .encSendD ..
  | .encCommand .. | .encCommandD .. => true

/-- The instruction is a wire message, executed by the decoder; the others are commands of the encoder (R2). -/
def Instr.isWire : Instr → Bool
  | .request .. | .send .. | .command .. => true
  | .encRequest .. | .encRequestD .. | .encSend .. | .encSendD .. | .encCommand .. | .encCommandD .. => false

end Sys2Proof
end

