-- ==== Sys2Proof/Decode.lean ====
section
/-! DEFINITION. The integer codec (40_int_codec.md), decoding of wire messages and of command selectors, total and
rejecting by name, and after it the encoder of instructions, from the same layout tables (30_encoding.md). -/

namespace Sys2Proof

/-! ### Integer codec -/

/-- R80: the four bytes of a field, most significant first. -/
def be32 (v : Word) : List Byte :=
  [v.extractLsb' 24 8, v.extractLsb' 16 8, v.extractLsb' 8 8, v.extractLsb' 0 8]

/-- R81: the field whose bytes are `b0` (lowest offset, most significant) to `b3`. -/
def unbe32 (b0 b1 b2 b3 : Byte) : Word := b0 ++ b1 ++ b2 ++ b3

/-! ### Tags and selectors -/

/-- R60, R66: the tag of a REQUEST. -/
def tagRequest : Byte := 1

/-- R60, R66: the tag of a SEND. -/
def tagSend : Byte := 2

/-- R60, R66: the tag of a COMMAND. -/
def tagCommand : Byte := 3

/-- R66: the three legal tags; all eight bits are compared. -/
def isTag (b : Byte) : Bool := b == tagRequest || b == tagSend || b == tagCommand

/-- R72, R75: the 3-bit value `(cmd_kind << 1) | dispatch`. -/
def selectorOf (cmdKind : BitVec 2) (dispatch : Bool) : BitVec 3 := cmdKind ++ BitVec.ofBool dispatch

/-- R64: the number of bytes of a message with this tag, 1, 2 or 3, and this length field. R64 gives no length for any other
tag, since no message has one (R66); that it is 17 there is the model's. DESIGN CHOICE (entry 25), unsafe. -/
def msglen (tag : Byte) (length : Nat) : Nat :=
  if tag = tagCommand then 9 else if tag = tagSend then 17 + length else 17

/-! ### Decoding -/

/-- Why something presented is no complete instruction. -/
inductive DecodeError where
  /-- There is no byte at all. -/
  | noByte
  /-- The tag byte is none of 1, 2, 3 (R66). -/
  | invalidTag (b : Byte)
  /-- The bytes end inside the header (R61, R62). -/
  | headerIncomplete
  /-- The bytes end inside the payload the header declares (R63). -/
  | payloadIncomplete
  /-- The selector's `cmd_kind` is 0, which selects no command (R72). -/
  | noSuchCommand (selector : BitVec 3)
  deriving DecidableEq, Repr

/-- One big-endian field and the bytes after it (R65). -/
def takeWord : List Byte → Option (Word × List Byte)
  | b0 :: b1 :: b2 :: b3 :: rest => some (unbe32 b0 b1 b2 b3, rest)
  | _ => none

/-- The four fields after the tag of format H17 (R61). -/
def takeFour (bs : List Byte) : Option (Word × Word × Word × Word × List Byte) :=
  match takeWord bs with
  | none => none
  | some (o, r0) =>
    match takeWord r0 with
    | none => none
    | some (i, r1) =>
      match takeWord r1 with
      | none => none
      | some (s, r2) =>
        match takeWord r2 with
        | none => none
        | some (l, r3) => some (o, i, s, l, r3)

/-- The bytes after tag 1 (R61). -/
def decodeRequest (bs : List Byte) : Except DecodeError (Instr × List Byte) :=
  match takeFour bs with
  | none => .error .headerIncomplete
  | some (o, i, s, l, rest) => .ok (.request o i s l, rest)

/-- The bytes after tag 2: the header's length field says how many payload bytes follow (R61, R63, R69). -/
def decodeSend (bs : List Byte) : Except DecodeError (Instr × List Byte) :=
  match takeFour bs with
  | none => .error .headerIncomplete
  | some (o, i, s, l, rest) =>
    if rest.length < l.toNat then .error .payloadIncomplete
    else .ok (.send o i s (rest.take l.toNat), rest.drop l.toNat)

/-- The bytes after tag 3 (R62). -/
def decodeCommand (bs : List Byte) : Except DecodeError (Instr × List Byte) :=
  match takeWord bs with
  | none => .error .headerIncomplete
  | some (c, r0) =>
    match takeWord r0 with
    | none => .error .headerIncomplete
    | some (i, rest) => .ok (.command c i, rest)

/-- The wire decoder: the message at the head of a byte sequence and the bytes after it (R66, R69, R75). -/
def decodeMessage : List Byte → Except DecodeError (Instr × List Byte)
  | [] => .error .noByte
  | t :: bs =>
    if t = tagRequest then decodeRequest bs
    else if t = tagSend then decodeSend bs
    else if t = tagCommand then decodeCommand bs
    else .error (.invalidTag t)

/-- The command port's decoder: the command a 3-bit selector names, with the operands presented (R31, R72, R75). -/
def decodePort (selector : BitVec 3) (x : Operands) : Except DecodeError Instr :=
  if selector = selectorOf 1 false then .ok (.encRequest x.first x.instanceNo x.start x.length)
  else if selector = selectorOf 1 true then .ok (.encRequestD x.first x.instanceNo x.start x.length)
  else if selector = selectorOf 2 false then .ok (.encSend x.first x.instanceNo x.start x.payload)
  else if selector = selectorOf 2 true then .ok (.encSendD x.first x.instanceNo x.start x.payload)
  else if selector = selectorOf 3 false then .ok (.encCommand x.first x.instanceNo)
  else if selector = selectorOf 3 true then .ok (.encCommandD x.first x.instanceNo)
  else .error (.noSuchCommand selector)

/-- Decoding of whatever is presented; a command leaves no bytes over. -/
def decode : Presented → Except DecodeError (Instr × List Byte)
  | .wire bytes => decodeMessage bytes
  | .port selector x =>
    match decodePort selector x with
    | .ok i => .ok (i, [])
    | .error e => .error e

/-! ### Encoding -/

/-- R61: the 17 header bytes with this tag. -/
def headerBytes (tag : Byte) (o i s l : Word) : List Byte := tag :: (be32 o ++ be32 i ++ be32 s ++ be32 l)

/-- R61: the bytes of a REQUEST. -/
def requestBytes (o i s l : Word) : List Byte := headerBytes tagRequest o i s l

/-- R61, R63: the bytes of a SEND; its length field is the number of payload bytes. -/
def sendBytes (o i s : Word) (payload : List Byte) : List Byte :=
  headerBytes tagSend o i s (BitVec.ofNat 32 payload.length) ++ payload

/-- R62: the bytes of a COMMAND. -/
def commandBytes (c i : Word) : List Byte := tagCommand :: (be32 c ++ be32 i)

/-- The words of an instruction. -/
def encode : Instr → Presented
  | .request o i s l => .wire (requestBytes o i s l)
  | .send o i s p => .wire (sendBytes o i s p)
  | .command c i => .wire (commandBytes c i)
  | .encRequest o i s l => .port (selectorOf 1 false) { first := o, instanceNo := i, start := s, length := l }
  | .encRequestD o i s l => .port (selectorOf 1 true) { first := o, instanceNo := i, start := s, length := l }
  | .encSend o i s p => .port (selectorOf 2 false) { first := o, instanceNo := i, start := s, payload := p }
  | .encSendD o i s p => .port (selectorOf 2 true) { first := o, instanceNo := i, start := s, payload := p }
  | .encCommand c i => .port (selectorOf 3 false) { first := c, instanceNo := i }
  | .encCommandD c i => .port (selectorOf 3 true) { first := c, instanceNo := i }

/-- The `match` value of the instruction's row in spec/opcode_table.json. -/
def Instr.opcode : Instr → Nat
  | .request .. => 1
  | .send .. => 2
  | .command .. => 3
  | .encRequest .. => 2
  | .encRequestD .. => 3
  | .encSend .. => 4
  | .encSendD .. => 5
  | .encCommand .. => 6
  | .encCommandD .. => 7

/-- What a row of the table matches on: the tag byte of wire bytes, the selector of a command (R75). -/
def Presented.opcode : Presented → Option Nat
  | .wire [] => none
  | .wire (t :: _) => some t.toNat
  | .port selector _ => some selector.toNat

/-! ### The table's numbering of an instruction's bits -/

/-- The byte that holds bits `8 * j + 7` down to `8 * j` of `w`. -/
def byteAt (w j : Nat) : Byte := BitVec.ofNat 8 (w / 256 ^ j)

/-- The first 17 bytes of an instruction whose bits are `w`, first byte from the lowest bits; bits at and above `nbits`
are 0. -/
def tableBytes (nbits w : Nat) : List Byte := (List.range 17).map (byteAt (w % 2 ^ nbits))

/-- The length field of a SEND header laid out so (R61, bytes 13 to 16). -/
def tableLength (nbits w : Nat) : Nat :=
  let v := w % 2 ^ nbits
  (unbe32 (byteAt v 13) (byteAt v 14) (byteAt v 15) (byteAt v 16)).toNat

/-- The instruction the decoders read from a row's bits. A legal tag in the first byte is a wire message, followed by
payload bytes of zero if its header declares any; the row of a message fixes all 8 bits of that byte. In one byte that is
no legal tag, or in fewer than 8 bits, the low 3 bits are a command selector (a command row's mask is 0x7), with all
operands zero and an empty payload. The two units have separate opcode spaces, and with 8 bits the selectors 2 and 3 read
like the tags 2 and 3: entry 16. -/
def decodeTableWord (nbits w : Nat) : Option Instr :=
  if 8 ≤ nbits ∧ isTag (byteAt (w % 2 ^ nbits) 0) = true then
    match decodeMessage (tableBytes nbits w ++ List.replicate (tableLength nbits w) 0) with
    | .ok (i, _) => some i
    | .error _ => none
  else if nbits ≤ 8 then
    match decodePort (BitVec.ofNat 3 (w % 2 ^ nbits)) {} with
    | .ok i => some i
    | .error _ => none
  else none

end Sys2Proof
end

