-- ==== Sys2Proof/Config.lean ====
section
/-! DEFINITION. The parameters of R4: the decoder's `MODE` and `MAX_PAYLOAD`. Both are held in the machine's state, so
every statement is made for all their values; the constants here are only what `State.reset` holds for them. -/

namespace Sys2Proof

/-- The static decoder parameter `MODE` (R4, R151): whether the automaton survives the end of an input buffer. -/
inductive Mode where
  | legacy
  | persistent
  deriving DecidableEq, Repr

/-- The value of the static `MODE` line that `State.reset` takes.
DESIGN CHOICE (entry 3), unsafe: R4 gives `MODE` no default. -/
def Config.modeLine : Mode := .legacy

/-- The spec's default of `MAX_PAYLOAD`, 2^32 - 1 (R4, D4): no limit beyond the field's own. -/
def Config.defaultMaxPayload : Word := 0xFFFFFFFF

end Sys2Proof
end

