-- ==== Sys2Proof/Machine/State.lean ====
section
/-! DEFINITION. The machine's state as plain data: the decoder's registers (R10), the parameters it is given (R4), and
what crosses its boundary (R28 to R33). The encoder has no state (R24). -/

namespace Sys2Proof.Machine

/-- STATE (R11): the automaton's six values; 6 and 7 are unrepresentable. -/
inductive AutoState where
  | idle
  | readObjectId
  | readInstanceNo
  | readStart
  | readLength
  | readData
  deriving DecidableEq, Repr

/-- ACC[0..3] (R14): the 4-byte buffer of the field being accumulated, `b0` most significant. -/
structure Acc where
  b0 : Byte
  b1 : Byte
  b2 : Byte
  b3 : Byte
  deriving DecidableEq, Repr

/-- A byte memory: (address, byte) cells, addresses strictly rising. An address not listed holds no value (U13). -/
abbrev Memory := List Host.Cell

/-- The four error kinds of R140, `truncatedMessage` among them, which nothing ever raises (R143). -/
inductive ErrorKind where
  | invalidTag
  | fieldOutOfRange
  | truncatedMessage
  | handlerFailure
  deriving DecidableEq, Repr

/-- The handler events (R29). -/
inductive HandlerEvent where
  | onRequest (objectId instanceNo offset length : Word)
  | onObjectReceived (objectId instanceNo offset : Word) (payload : List Byte)
  | onCommand (commandCode instanceNo : Word)
  deriving DecidableEq, Repr

/-- The reports (R30): what the report port carries. -/
inductive Report where
  | invalidTag (b : Byte)
  | handlerFailure
  deriving DecidableEq, Repr

/-- One output of the decoder; events and reports form one sequence (R154). -/
inductive Output where
  | event (e : HandlerEvent)
  | report (r : Report)
  deriving DecidableEq, Repr

/-- What the decoder finds when it looks for the handler's answer to an event: one of the two answers (R33), or none yet,
in which case it looks again in its next step (R181: a handshake delays and changes nothing else; entry 7). -/
inductive Answer where
  | ok
  | fail
  | notYet
  deriving DecidableEq, Repr

/-- The result of an encoder command (R32, R99): the buffer, the bare completion of a dispatching command, or the error. -/
inductive EncResult where
  | ok (bytes : List Byte)
  | done
  | err (kind : ErrorKind)
  deriving DecidableEq, Repr

/-- One output of the encoder: a whole buffer handed to the transport, or a result to the issuer (R32). -/
inductive EncOutput where
  | send (bytes : List Byte)
  | result (r : EncResult)
  deriving DecidableEq, Repr

/-- An input event other than `RESET`: `BYTE(b)` or `EOB` for the decoder (R28), or a command for the encoder (R31). -/
inductive PortEvent where
  | byte (b : Byte)
  | eob
  | command (selector : BitVec 3) (operands : Operands)
  deriving DecidableEq, Repr

/-- What is presented next: one event, or `RESET`, alone or together with another event (R28, R147). -/
inductive Event where
  | port (e : PortEvent)
  | reset (along : Option PortEvent)
  deriving DecidableEq, Repr

/-- Why the machine stops. All three are safe, and no state that meets `State.Inv` (Safety.lean) reaches one. -/
inductive Fault where
  /-- Raised by an access to ACC at an index of 4 or more, an address the spec says does not exist (R40). Safe. -/
  | accOutOfRange
  /-- Raised by a store to PAY at an index of LEN or more, an address the spec says does not exist (R40). Safe. -/
  | payOutOfRange
  /-- Raised by a read of a PAY cell that holds no value (U13). Safe. -/
  | payUnwritten
  deriving DecidableEq, Repr

/-- What the machine gives no meaning to. -/
inductive Refusal where
  /-- Raised by an arm of `exec` whose instruction has no meaning yet; no arm does. Safe. -/
  | notModelled (mnemonic : String)
  /-- Raised by a SEND whose length is above `MAX_PAYLOAD`, which R118 says the model refuses (U7). Safe. -/
  | payloadTooLarge (length : Nat)
  /-- Raised by a command port selector with `cmd_kind` 0, which selects no command (R72, U12). Safe. -/
  | noSuchCommand (selector : BitVec 3)
  deriving DecidableEq, Repr

/-- The state of the machine. Up to `pos` the decoder's registers (R10, R18), then its parameters (R4), then what lies
outside the block (entries 6 and 7). -/
structure State where
  /-- STATE (R11). -/
  state : AutoState
  /-- TAG (R12). -/
  tag : Byte
  /-- ACC (R14). -/
  acc : Acc
  /-- CNT (R14, R15). -/
  cnt : Word
  /-- x[0] = OBJ (R13). -/
  obj : Word
  /-- x[1] = INST (R13). -/
  inst : Word
  /-- x[2] = START (R13). -/
  start : Word
  /-- x[3] = LEN (R13). -/
  len : Word
  /-- PAY (R16): the cells written so far; it exists in READ_DATA, with `len` cells. -/
  pay : Memory
  /-- ABORT (R17). -/
  abort : Bool
  /-- POS (R18). -/
  pos : Nat
  /-- `MODE` as sampled by the last `RESET` (R4, R170). -/
  mode : Mode
  /-- The static `MODE` input line (R27, R173). -/
  modeInput : Mode
  /-- `MAX_PAYLOAD` (R4). -/
  maxPayload : Word
  /-- A handler event has been presented and its answer has not come yet (R33, R172). -/
  awaiting : Bool
  /-- The events the environment will present, next one first (R28, R31). -/
  input : List Event
  /-- What the decoder will find each time it looks for an answer, next look first (R33); past the end, no answer ever
  (U11). -/
  answers : List Answer
  /-- The decoder's outputs so far, oldest first (R154). -/
  outputs : List Output
  /-- The encoder's outputs so far, oldest first (R98). -/
  encOut : List EncOutput
  deriving DecidableEq, Repr

/-- The value ACC holds where it "holds no value" after reset. DESIGN CHOICE (entry 1), unsafe. -/
def Acc.zero : Acc := ⟨0, 0, 0, 0⟩

/-- The machine right after reset (R27), with nothing presented to it yet. STATE, CNT, ABORT, POS and PAY are the spec's;
TAG, ACC and x[0..3] hold no value there and are 0 here. DESIGN CHOICE (entry 1), unsafe. -/
def State.reset : State where
  state := .idle
  tag := 0
  acc := Acc.zero
  cnt := 0
  obj := 0
  inst := 0
  start := 0
  len := 0
  pay := []
  abort := false
  pos := 0
  mode := Config.modeLine
  modeInput := Config.modeLine
  maxPayload := Config.defaultMaxPayload
  awaiting := false
  input := []
  answers := []
  outputs := []
  encOut := []

end Sys2Proof.Machine
end

