-- ==== Sys2Proof/Machine/Flags.lean ====
section
/-! DEFINITION. The hardware has no flags (R22). Its two status outputs, functions of the state (R19), and the numbers
the spec gives the automaton's states (R11) and the error kinds (R140). -/

namespace Sys2Proof.Machine

/-- R19: `BUSY` = (STATE ≠ IDLE). -/
def State.busy (s : State) : Bool := s.state != .idle

/-- R19: `PENDING` = LEN − CNT in READ_DATA and 0 otherwise. -/
def State.pending (s : State) : Word := if s.state = .readData then s.len - s.cnt else 0

/-- R11: the number of a state of the automaton (not observable on any interface). -/
def AutoState.number : AutoState → Nat
  | .idle => 0
  | .readObjectId => 1
  | .readInstanceNo => 2
  | .readStart => 3
  | .readLength => 4
  | .readData => 5

/-- R140: the code of an error kind. -/
def ErrorKind.code : ErrorKind → Nat
  | .invalidTag => 1
  | .fieldOutOfRange => 2
  | .truncatedMessage => 3
  | .handlerFailure => 4

end Sys2Proof.Machine
end

