-- ==== Sys2Proof/Machine/Ops.lean ====
section
/-! DEFINITION. The operations the meanings and the decoder's steps share: memory, the accumulator, the field registers,
outputs, raising an error and what follows it, the discharge of a message, and the fresh automaton. -/

namespace Sys2Proof.Machine

/-! ### Byte memory -/

/-- The byte at an address; none where no value is held (U13). -/
def Memory.read : Memory → Nat → Option Byte
  | [], _ => none
  | (a, b) :: m, k => if a = k then some b else Memory.read m k

/-- Store a byte, keeping the addresses strictly rising. -/
def Memory.write : Memory → Nat → Byte → Memory
  | [], k, v => [(k, v)]
  | (a, b) :: m, k, v =>
    if k < a then (k, v) :: (a, b) :: m
    else if k = a then (k, v) :: m
    else (a, b) :: Memory.write m k v

/-- The bytes at `k`, `k + 1`, ..., `n` of them; none if one of them holds no value. -/
def Memory.range (m : Memory) (k : Nat) : Nat → Option (List Byte)
  | 0 => some []
  | n + 1 =>
    match Memory.read m k, Memory.range m (k + 1) n with
    | some b, some bs => some (b :: bs)
    | _, _ => none

/-- The canonical form: addresses strictly rising. -/
def Memory.wf : Memory → Bool
  | [] => true
  | [_] => true
  | (a, _) :: (a', b') :: m => decide (a < a') && Memory.wf ((a', b') :: m)

/-- Cells holding these bytes from address `k` upward. -/
def Memory.ofBytes (k : Nat) : List Byte → Memory
  | [] => []
  | b :: bs => (k, b) :: Memory.ofBytes (k + 1) bs

/-! ### Accumulator and field registers -/

/-- ACC[k] <- b; none at an index that does not exist (R40). -/
def Acc.set (a : Acc) : Nat → Byte → Option Acc
  | 0, b => some { a with b0 := b }
  | 1, b => some { a with b1 := b }
  | 2, b => some { a with b2 := b }
  | 3, b => some { a with b3 := b }
  | _, _ => none

/-- R114: the field whose bytes ACC holds. -/
def Acc.toWord (a : Acc) : Word := unbe32 a.b0 a.b1 a.b2 a.b3

/-- ACC with the four bytes of a field (R42). -/
def Acc.ofWord (v : Word) : Acc :=
  ⟨v.extractLsb' 24 8, v.extractLsb' 16 8, v.extractLsb' 8 8, v.extractLsb' 0 8⟩

/-- The bytes of ACC in arrival order. -/
def Acc.bytes (a : Acc) : List Byte := [a.b0, a.b1, a.b2, a.b3]

/-- x[f] <- v (R13). There are four field registers; no rule writes another. -/
def State.setField (s : State) : Nat → Word → State
  | 0, v => { s with obj := v }
  | 1, v => { s with inst := v }
  | 2, v => { s with start := v }
  | 3, v => { s with len := v }
  | _, _ => s

/-! ### Outputs -/

/-- Present a handler event (R29). -/
def State.emit (s : State) (e : HandlerEvent) : State := { s with outputs := s.outputs ++ [.event e] }

/-- Present a report (R30). -/
def State.report (s : State) (r : Report) : State := { s with outputs := s.outputs ++ [.report r] }

/-- Present an output of the encoder (R32). -/
def State.put (s : State) (o : EncOutput) : State := { s with encOut := s.encOut ++ [o] }

/-! ### Errors -/

/-- An error that has occurred, with the value it records (R140). `TruncatedMessage` has no occurrence (R143). -/
inductive Raised where
  | invalidTag (b : Byte)
  | fieldOutOfRange
  | handlerFailure
  deriving DecidableEq, Repr

/-- Raising an error: its whole effect on the state (R148). `InvalidTag` is reported and nothing else changes (R141);
`FieldOutOfRange` is the command's result (R142); `HandlerFailure` is reported and ABORT is set (R144). Nothing is saved
and there is no vector. -/
def raise (e : Raised) (s : State) : State :=
  match e with
  | .invalidTag b => s.report (.invalidTag b)
  | .fieldOutOfRange => s.put (.result (.err .fieldOutOfRange))
  | .handlerFailure => { s.report .handlerFailure with abort := true }

/-- What ends the effect of an error (R149): the end of the buffer clears ABORT. -/
def clearAbort (s : State) : State := { s with abort := false }

/-! ### Discharge -/

/-- R33, R128: look for the handler's answer to the event presented, and take it if it is there. Otherwise the decoder goes
on waiting for it, one step or for ever (R181, U11). -/
def takeAnswer (s : State) : State :=
  match s.answers with
  | [] => { s with awaiting := true }
  | .notYet :: later => { s with answers := later, awaiting := true }
  | .ok :: later => { s with answers := later, awaiting := false }
  | .fail :: later => raise .handlerFailure { s with answers := later, awaiting := false }

/-- R120: the discharge of a message. Its one event is presented, STATE goes to IDLE with CNT 0, PAY ceases to exist, and
the handler's answer is taken. -/
def discharge (e : HandlerEvent) (s : State) : State :=
  takeAnswer (State.emit { s with state := .idle, cnt := 0, pay := [] } e)

/-! ### Fresh automaton -/

/-- "Fresh automaton state" (R27, R124): STATE = IDLE, CNT = 0, ABORT = 0, POS = 0, and PAY does not exist. TAG, ACC and
x[0..3] hold no value then; as in the reference algorithm (R131) they are not written, and what is left in them is "no
value" in the sense of R20. DEDUCED (entry 2). -/
def freshAutomaton (s : State) : State :=
  { s with state := .idle, cnt := 0, pay := [], abort := false, pos := 0 }

end Sys2Proof.Machine
end

