-- ==== Sys2Proof/Machine/Decoder.lean ====
section
/-! DEFINITION. The decoder's steps (42_decoder.md): the dispatch of a byte, one definition per step rule, the end of a
buffer in both modes, `RESET`, and what the machine takes next. -/

namespace Sys2Proof.Machine

/-- What taking the next input leads to. -/
inductive Fetch where
  /-- The input is taken, to this state, and completes no instruction. -/
  | taken (s : State)
  /-- The input completes an instruction, to be executed in this state. -/
  | run (i : Instr) (s : State)
  /-- The machine stops. -/
  | fault (f : Fault)
  /-- The model gives the input no meaning. -/
  | refused (r : Refusal)
  deriving DecidableEq, Repr

/-- R112, R113: a byte in IDLE. -/
def idleByte (b : Byte) (s : State) : Fetch :=
  if isTag b then .taken { s with tag := b, cnt := 0, state := .readObjectId }
  else .taken (raise (.invalidTag b) s)

/-- R115 to R118: what completing a field does, by STATE; x[f] has just been written and CNT is 0. The discharging cases
run the message's instruction. Any TAG other than 3, and other than 1, goes the way of R116's and R118's `else`. -/
def completeField (s : State) : Fetch :=
  match s.state with
  | .readObjectId => .taken { s with state := .readInstanceNo }
  | .readInstanceNo =>
    if s.tag = tagCommand then .run (.command s.obj s.inst) s else .taken { s with state := .readStart }
  | .readStart => .taken { s with state := .readLength }
  | .readLength =>
    if s.tag = tagRequest then .run (.request s.obj s.inst s.start s.len) s
    else if s.len = 0 then .run (.send s.obj s.inst s.start []) s
    else if s.maxPayload < s.len then .refused (.payloadTooLarge s.len.toNat)
    else .taken { s with pay := [], cnt := 0, state := .readData }
  | .idle | .readData => .taken s

/-- R114: a byte of a header field. -/
def headerByte (b : Byte) (s : State) : Fetch :=
  match s.acc.set s.cnt.toNat b with
  | none => .fault .accOutOfRange
  | some acc =>
    if s.cnt + 1 = 4 then
      completeField (State.setField { s with acc := acc, cnt := 0 } (s.state.number - 1) acc.toWord)
    else .taken { s with acc := acc, cnt := s.cnt + 1 }

/-- R119: a byte of the payload. -/
def dataByte (b : Byte) (s : State) : Fetch :=
  if s.cnt < s.len then
    let t := { s with pay := s.pay.write s.cnt.toNat b, cnt := s.cnt + 1 }
    if t.cnt = t.len then
      match t.pay.range 0 t.len.toNat with
      | none => .fault .payUnwritten
      | some payload => .run (.send t.obj t.inst t.start payload) t
    else .taken t
  else .fault .payOutOfRange

/-- R111, R129: `BYTE(b)`. -/
def takeByte (b : Byte) (s : State) : Fetch :=
  let t := { s with pos := s.pos + 1 }
  if t.abort then .taken t
  else
    match t.state with
    | .idle => idleByte b t
    | .readObjectId | .readInstanceNo | .readStart | .readLength => headerByte b t
    | .readData => dataByte b t

/-- R124, R125: `EOB`. -/
def endOfBuffer (s : State) : State :=
  match s.mode with
  | .legacy => freshAutomaton s
  | .persistent => { clearAbort s with pos := 0 }

/-- R170, R172: `RESET`. The decoder is fresh, `MODE` is sampled, a handler answer still awaited is no longer awaited,
and nothing is presented. The encoder has no state to reset (R24). -/
def resetEvent (s : State) : State := { freshAutomaton s with mode := s.modeInput, awaiting := false }

/-- A decoder input is taken only when the answer to the last event is in (R33); until then the decoder takes the answer,
or waits for it (U11). -/
def unlessAwaiting (s : State) (f : Fetch) : Fetch := if s.awaiting then .taken (takeAnswer s) else f

/-- What the machine takes next: the event at the head of the input. `RESET` wins over an event presented with it, which
is not taken (R170, R147). A command is the encoder's and waits for nothing (R25, R98). With nothing presented nothing
happens but that an awaited answer may come. -/
def fetch (s : State) : Fetch :=
  match s.input with
  | [] => unlessAwaiting s (.taken s)
  | .reset _ :: later => .taken (resetEvent { s with input := later })
  | .port (.byte b) :: later => unlessAwaiting s (takeByte b { s with input := later })
  | .port .eob :: later => unlessAwaiting s (.taken (endOfBuffer { s with input := later }))
  | .port (.command selector operands) :: later =>
    match decodePort selector operands with
    | .ok i => .run i { s with input := later }
    | .error _ => .refused (.noSuchCommand selector)

/-- The bytes of the message in progress that have been consumed so far, read back from the registers. -/
def fetchedBytes (s : State) : List Byte :=
  match s.state with
  | .idle => []
  | .readObjectId => s.tag :: s.acc.bytes.take s.cnt.toNat
  | .readInstanceNo => s.tag :: (be32 s.obj ++ s.acc.bytes.take s.cnt.toNat)
  | .readStart => s.tag :: (be32 s.obj ++ be32 s.inst ++ s.acc.bytes.take s.cnt.toNat)
  | .readLength => s.tag :: (be32 s.obj ++ be32 s.inst ++ be32 s.start ++ s.acc.bytes.take s.cnt.toNat)
  | .readData => headerBytes s.tag s.obj s.inst s.start s.len ++ s.pay.map Prod.snd

/-- The state in which the decoder has consumed every byte of a message but its last, which is presented next (entry 5);
or, for a command, the state in which it is presented next. Only what the fetch needs is changed. -/
def placeInstr (i : Instr) (s : State) : State :=
  let ready := { s with abort := false, awaiting := false }
  match i with
  | .request o n st l =>
    { ready with
      state := .readLength, tag := tagRequest, obj := o, inst := n, start := st, acc := Acc.ofWord l, cnt := 3,
      pay := [], input := .port (.byte (Acc.ofWord l).b3) :: s.input }
  | .send o n st [] =>
    { ready with
      state := .readLength, tag := tagSend, obj := o, inst := n, start := st, acc := Acc.zero, cnt := 3, pay := [],
      input := .port (.byte 0) :: s.input }
  | .send o n st (b :: bs) =>
    let l := BitVec.ofNat 32 (bs.length + 1)
    { ready with
      state := .readData, tag := tagSend, obj := o, inst := n, start := st, len := l, acc := Acc.ofWord l,
      cnt := BitVec.ofNat 32 bs.length, pay := Memory.ofBytes 0 ((b :: bs).take bs.length),
      input := .port (.byte (((b :: bs).drop bs.length).headD 0)) :: s.input }
  | .command c n =>
    { ready with
      state := .readInstanceNo, tag := tagCommand, obj := c, acc := Acc.ofWord n, cnt := 3, pay := [],
      input := .port (.byte (Acc.ofWord n).b3) :: s.input }
  | .encRequest .. | .encRequestD .. | .encSend .. | .encSendD .. | .encCommand .. | .encCommandD .. =>
    match encode i with
    | .port selector operands => { s with input := .port (.command selector operands) :: s.input }
    | .wire _ => s

end Sys2Proof.Machine
end

