-- ==== Sys2Proof/Machine/Operands.lean ====
section
/-! DEFINITION. The operands of the encoder's commands: the range check of R83 and R90, and the 32-bit field an operand
becomes. -/

namespace Sys2Proof.Machine

/-- R83: the integer fits an unsigned 32-bit field. -/
def fits32 (n : Int) : Bool := decide (0 ≤ n) && decide (n ≤ 4294967295)

/-- R90: every one of these fits. -/
def allFit (ns : List Int) : Bool := ns.all fits32

/-- The field of an operand that fits (R80): its 32 bits. -/
def fieldOf (n : Int) : Word := BitVec.ofInt 32 n

end Sys2Proof.Machine
end

