-- ==== Sys2Proof/Machine/Encoder.lean ====
section
/-! DEFINITION. The meanings of the six encoder commands (R91 to R96). The encoder reads its operands and nothing else
and writes no architectural state (R24, R97): a command's whole effect is its result and, in a dispatching form, one
`send` before it. -/

namespace Sys2Proof.Machine

/-- R90, R91: the buffer of ENC_REQUEST, or none for `FieldOutOfRange`. -/
def buildRequest (objectId instanceNo start length : Int) : Option (List Byte) :=
  if allFit [objectId, instanceNo, start, length] then
    some (requestBytes (fieldOf objectId) (fieldOf instanceNo) (fieldOf start) (fieldOf length))
  else none

/-- R90, R92: the buffer of ENC_SEND, or none for `FieldOutOfRange`. -/
def buildSend (objectId instanceNo start : Int) (payload : List Byte) : Option (List Byte) :=
  if allFit [objectId, instanceNo, start, payload.length] then
    some (sendBytes (fieldOf objectId) (fieldOf instanceNo) (fieldOf start) payload)
  else none

/-- R90, R93: the buffer of ENC_COMMAND, or none for `FieldOutOfRange`. -/
def buildCommand (commandCode instanceNo : Int) : Option (List Byte) :=
  if allFit [commandCode, instanceNo] then some (commandBytes (fieldOf commandCode) (fieldOf instanceNo)) else none

/-- The buffer-returning form: result `Ok(OUT)`, or the error (R90 to R93). -/
def returnBuffer (r : Option (List Byte)) (s : State) : State :=
  match r with
  | some out => s.put (.result (.ok out))
  | none => raise .fieldOutOfRange s

/-- The dispatching form: one `send` of the whole buffer and then result `Done`, or the error and no `send` (R94 to R96,
R99). -/
def dispatchBuffer (r : Option (List Byte)) (s : State) : State :=
  match r with
  | some out => (s.put (.send out)).put (.result .done)
  | none => raise .fieldOutOfRange s

/-- R91: ENC_REQUEST. -/
def execEncRequest (objectId instanceNo start length : Int) (s : State) : Host.Outcome State Fault Refusal :=
  .next (returnBuffer (buildRequest objectId instanceNo start length) s)

/-- R94: ENC_REQUEST.D. -/
def execEncRequestD (objectId instanceNo start length : Int) (s : State) : Host.Outcome State Fault Refusal :=
  .next (dispatchBuffer (buildRequest objectId instanceNo start length) s)

/-- R92: ENC_SEND. -/
def execEncSend (objectId instanceNo start : Int) (payload : List Byte) (s : State) :
    Host.Outcome State Fault Refusal :=
  .next (returnBuffer (buildSend objectId instanceNo start payload) s)

/-- R95: ENC_SEND.D. -/
def execEncSendD (objectId instanceNo start : Int) (payload : List Byte) (s : State) :
    Host.Outcome State Fault Refusal :=
  .next (dispatchBuffer (buildSend objectId instanceNo start payload) s)

/-- R93: ENC_COMMAND. -/
def execEncCommand (commandCode instanceNo : Int) (s : State) : Host.Outcome State Fault Refusal :=
  .next (returnBuffer (buildCommand commandCode instanceNo) s)

/-- R96: ENC_COMMAND.D. -/
def execEncCommandD (commandCode instanceNo : Int) (s : State) : Host.Outcome State Fault Refusal :=
  .next (dispatchBuffer (buildCommand commandCode instanceNo) s)

end Sys2Proof.Machine
end

