-- ==== Sys2Proof/Machine/Wire.lean ====
section
/-! DEFINITION. The meanings of the three wire messages (R121 to R123): the net effect of a complete message, in the step
that consumes its last byte. Its bytes have been counted by POS one at a time as they were consumed (R111). While ABORT
is set they change nothing (entry 15): the step never executes one then, since R129 discards its bytes one by one. -/

namespace Sys2Proof.Machine

/-- R121: TAG, ACC, CNT and x[0..3] hold the message, and `onRequest` is discharged. -/
def execRequest (objectId instanceNo start length : Word) (s : State) : Host.Outcome State Fault Refusal :=
  if s.abort then .next s
  else
    .next (discharge (.onRequest objectId instanceNo start length)
      { s with
        tag := tagRequest, acc := Acc.ofWord length, obj := objectId, inst := instanceNo, start := start,
        len := length })

/-- R122: TAG, ACC, CNT and x[0..3] hold the message, LEN the number of its payload bytes, and `onObjectReceived` is
discharged with the payload. A length above `MAX_PAYLOAD` is refused (R118, U7). -/
def execSend (objectId instanceNo start : Word) (payload : List Byte) (s : State) :
    Host.Outcome State Fault Refusal :=
  if s.abort then .next s
  else if s.maxPayload.toNat < payload.length then .refused (.payloadTooLarge payload.length)
  else
    .next (discharge (.onObjectReceived objectId instanceNo start payload)
      { s with
        tag := tagSend, acc := Acc.ofWord (BitVec.ofNat 32 payload.length), obj := objectId, inst := instanceNo,
        start := start, len := BitVec.ofNat 32 payload.length })

/-- R123: TAG, ACC, CNT, x[0] and x[1] hold the message, x[2] and x[3] are not written, and `onCommand` is discharged. -/
def execCommand (commandCode instanceNo : Word) (s : State) : Host.Outcome State Fault Refusal :=
  if s.abort then .next s
  else
    .next (discharge (.onCommand commandCode instanceNo)
      { s with tag := tagCommand, acc := Acc.ofWord instanceNo, obj := commandCode, inst := instanceNo })

end Sys2Proof.Machine
end

