-- ==== Sys2Proof/Machine/Dispatch.lean ====
section
/-! DEFINITION. One arm per instruction, each a direct call of its meaning. -/

namespace Sys2Proof.Machine

def exec (i : Instr) (s : State) : Host.Outcome State Fault Refusal :=
  match i with
  | .request o n st l => Sys2Proof.Machine.execRequest o n st l s
  | .send o n st p => Sys2Proof.Machine.execSend o n st p s
  | .command c n => Sys2Proof.Machine.execCommand c n s
  | .encRequest o n st l => Sys2Proof.Machine.execEncRequest o n st l s
  | .encRequestD o n st l => Sys2Proof.Machine.execEncRequestD o n st l s
  | .encSend o n st p => Sys2Proof.Machine.execEncSend o n st p s
  | .encSendD o n st p => Sys2Proof.Machine.execEncSendD o n st p s
  | .encCommand c n => Sys2Proof.Machine.execEncCommand c n s
  | .encCommandD c n => Sys2Proof.Machine.execEncCommandD c n s

end Sys2Proof.Machine
end

