-- ==== Sys2Proof/Machine/Step.lean ====
section
/-! DEFINITION. One step of the machine: it takes one input (R7, R136), and executes the instruction that input
completes. -/

namespace Sys2Proof.Machine

/-- One step. -/
def step (s : State) : Host.Outcome State Fault Refusal :=
  match fetch s with
  | .taken t => .next t
  | .run i t => exec i t
  | .fault f => .fault f
  | .refused r => .refused r

/-- `s` with the instruction of a table row's bits placed where the next step runs it: a command at the head of the
input; a message with all bytes but its last consumed and that last byte at the head of the input (entry 5). Bits that
are no instruction are placed as the byte they begin with. -/
def State.withFetchWord (s : State) (nbits w : Nat) : State :=
  match decodeTableWord nbits w with
  | some i => placeInstr i s
  | none => { s with input := .port (.byte (byteAt (w % 2 ^ nbits) 0)) :: s.input }

end Sys2Proof.Machine
end

