-- ==== Sys2Proof/Safety.lean ====
section
/-! DEFINITION. What a good state is, and the machine at the start of a run, in the terms the statements use. -/

namespace Sys2Proof.Machine

/-- The four header states (R14). -/
def AutoState.isHeader : AutoState → Bool
  | .readObjectId | .readInstanceNo | .readStart | .readLength => true
  | .idle | .readData => false

/-- The states the rules can reach, as R12, R14, R15, R16, R17 and R20 describe them: CNT is 0 in IDLE and below 4 in a
header state, where TAG is a legal tag and, from READ_START on, not that of a COMMAND; in READ_DATA the message is a SEND
of at most `MAX_PAYLOAD` bytes, ACC still holds LEN's bytes, CNT is below LEN and PAY holds exactly the bytes at addresses 0 to CNT - 1; PAY does not
exist elsewhere; while ABORT is set, or an answer is awaited, STATE is IDLE (R120, R128). -/
abbrev State.Inv (s : State) : Prop :=
  (s.state = .idle → s.cnt = 0) ∧
  (s.state.isHeader = true → s.cnt < 4 ∧ isTag s.tag = true) ∧
  (s.state = .readStart ∨ s.state = .readLength → s.tag ≠ tagCommand) ∧
  (s.state = .readData →
    s.tag = tagSend ∧ s.acc = Acc.ofWord s.len ∧ s.cnt < s.len ∧ s.len ≤ s.maxPayload ∧
    s.pay.length = s.cnt.toNat ∧ Memory.ofBytes 0 (s.pay.map Prod.snd) = s.pay) ∧
  (s.state ≠ .readData → s.pay = []) ∧
  (s.abort = true → s.state = .idle) ∧
  (s.awaiting = true → s.state = .idle ∧ s.abort = false)

/-- `s` with other contents in TAG, ACC and x[0..3]. -/
def State.withRegisters (s : State) (tag : Byte) (acc : Acc) (obj inst start len : Word) : State :=
  { s with tag := tag, acc := acc, obj := obj, inst := inst, start := start, len := len }

/-- `t` is `s` but for the contents of registers that hold no value (R20's table): TAG holds one outside IDLE, ACC its
first CNT bytes in a header state, OBJ one from READ_INSTANCE_NO on, INST from READ_START on, START from READ_LENGTH on
and LEN in READ_DATA. In IDLE none of them does. -/
abbrev State.SameValues (s t : State) : Prop :=
  t = s.withRegisters t.tag t.acc t.obj t.inst t.start t.len ∧
  (s.state ≠ .idle → t.tag = s.tag) ∧
  (s.state.isHeader = true → t.acc.bytes.take s.cnt.toNat = s.acc.bytes.take s.cnt.toNat) ∧
  (2 ≤ s.state.number → t.obj = s.obj) ∧
  (3 ≤ s.state.number → t.inst = s.inst) ∧
  (4 ≤ s.state.number → t.start = s.start) ∧
  (s.state = .readData → t.len = s.len)

/-- The decoder waits for a tag: STATE is IDLE, nothing is being discarded and no answer is awaited. -/
abbrev State.Ready (s : State) : Prop := s.state = .idle ∧ s.abort = false ∧ s.awaiting = false

/-- The events that present these bytes (R28). -/
def bytesIn (bs : List Byte) : List Event := bs.map fun b => .port (.byte b)

/-- One input buffer: its bytes and the `EOB` that ends it (R28). -/
def bufferIn (bs : List Byte) : List Event := bytesIn bs ++ [.port .eob]

/-- The handler event of a wire message (R121 to R123). -/
def eventOf : Instr → Option HandlerEvent
  | .request o n st l => some (.onRequest o n st l)
  | .send o n st p => some (.onObjectReceived o n st p)
  | .command c n => some (.onCommand c n)
  | .encRequest .. | .encRequestD .. | .encSend .. | .encSendD .. | .encCommand .. | .encCommandD .. => none

/-- The start of a run (R173, R183): right after reset in this mode, with these events and handler answers to come. -/
def State.startOf (mode : Mode) (events : List Event) (answers : List Answer) : State :=
  { State.reset with mode := mode, modeInput := mode, input := events, answers := answers }

/-- `k` steps of the machine, stopping at the first that is no next state. -/
def runSteps : Nat → State → Host.Outcome State Fault Refusal
  | 0, s => .next s
  | k + 1, s =>
    match step s with
    | .next t => runSteps k t
    | .fault f => .fault f
    | .refused r => .refused r

/-- The bytes of a wire message; none for a command. -/
def wireBytes (i : Instr) : List Byte :=
  match encode i with
  | .wire bs => bs
  | .port _ _ => []

/-- A SEND no longer than `MAX_PAYLOAD`, or any other instruction (R118). -/
def fitsPayload (maxPayload : Word) : Instr → Bool
  | .send _ _ _ p => decide (p.length ≤ maxPayload.toNat)
  | .request .. | .command .. | .encRequest .. | .encRequestD .. | .encSend .. | .encSendD ..
  | .encCommand .. | .encCommandD .. => true

/-- What a buffer's bytes amount to, cut into messages from the front (R66, R69, R133 to R135): the event of a complete
message, then the rest; a report for a byte that is no tag, then the rest; nothing for bytes that end inside a message.
The first argument bounds the number of cuts; the number of bytes is always enough. -/
def parseOutputs : Nat → List Byte → List Output
  | 0, _ => []
  | n + 1, bs =>
    match decodeMessage bs with
    | .ok (i, rest) => (eventOf i).toList.map .event ++ parseOutputs n rest
    | .error (.invalidTag b) => .report (.invalidTag b) :: parseOutputs n (bs.drop 1)
    | .error _ => []

/-- The observable result of a decoder run (R183): its outputs in order, with the final `BUSY` and `PENDING`. -/
def State.observed (s : State) : List Output × Bool × Word := (s.outputs, s.busy, s.pending)

end Sys2Proof.Machine
end

