-- ==== Sys2Proof/Certificates/Slice0/Obligations.lean ====
section
/-! DEFINITION. The statements about this machine, one `Prop` each, from the numbered rules of spec/. A docstring names
the rule a statement formalises, or says what it rests on. -/

open Sys2Proof Sys2Proof.Machine

/-! ### The integer codec -/

/-- R80: `be32` is the value's four base-256 digits, most significant first. -/
def Obligations.Be32IsBigEndianDigits : Prop :=
  ∀ v : Word, (be32 v).map BitVec.toNat =
    [v.toNat / 2 ^ 24 % 256, v.toNat / 2 ^ 16 % 256, v.toNat / 2 ^ 8 % 256, v.toNat % 256]

/-- R81: `unbe32` is the weighted sum of its four bytes, each zero-extended. -/
def Obligations.Unbe32IsWeightedSum : Prop :=
  ∀ b0 b1 b2 b3 : Byte,
    (unbe32 b0 b1 b2 b3).toNat = b0.toNat * 2 ^ 24 + b1.toNat * 2 ^ 16 + b2.toNat * 2 ^ 8 + b3.toNat

/-- R82: `be32` and `unbe32` undo each other. -/
def Obligations.IntCodecRoundTrip : Prop :=
  (∀ v : Word, ∃ b0 b1 b2 b3, be32 v = [b0, b1, b2, b3] ∧ unbe32 b0 b1 b2 b3 = v) ∧
  (∀ b0 b1 b2 b3 : Byte, be32 (unbe32 b0 b1 b2 b3) = [b0, b1, b2, b3])

/-- R84: a 32-bit shift accumulator fed the four bytes, from any starting value, ends with the same field. -/
def Obligations.ShiftAccumulatorAgrees : Prop :=
  ∀ (a : Word) (b0 b1 b2 b3 : Byte),
    [b0, b1, b2, b3].foldl (fun (acc : Word) b => acc * 256 + b.setWidth 32) a = unbe32 b0 b1 b2 b3

/-! ### Encoding and decoding -/

/-- R61 to R63, R72: decoding what encodes a well-formed instruction gives the instruction back, every operand at every
value; and a message is told from whatever bytes follow it (R48, R69). -/
def Obligations.DecodeEncodeRoundTrip : Prop :=
  ∀ i : Instr, i.wellFormed = true →
    decode (encode i) = .ok (i, []) ∧
    ∀ bs rest, encode i = .wire bs → decodeMessage (bs ++ rest) = .ok (i, rest)

/-- R61 to R63, R66: bytes that decode to a message are that message's encoding and then the rest, so no two byte
sequences are one message and the decoder drops no bit. -/
def Obligations.DecodedBytesAreTheEncoding : Prop :=
  ∀ bs i rest, decodeMessage bs = .ok (i, rest) → i.wellFormed = true ∧ ∃ p, encode i = .wire p ∧ bs = p ++ rest

/-- Words written out from the encodings of the spec: vectors E5, E16 and E1 of 95_test_vectors.md, and the six command
selectors of the opcode table. -/
def Obligations.SpecWordsDecode : Prop :=
  decodeMessage [0x01, 0, 0, 0, 0x10, 0, 0, 0, 0x01, 0, 0, 0x02, 0, 0, 0, 0, 0x40] = .ok (.request 16 1 512 64, []) ∧
  decodeMessage [0x02, 0, 0, 0, 0x10, 0, 0, 0, 0x01, 0, 0, 0x02, 0, 0, 0, 0, 0x03, 0xAA, 0xBB, 0xCC]
    = .ok (.send 16 1 512 [0xAA, 0xBB, 0xCC], []) ∧
  decodeMessage [0x03, 0, 0, 0, 0x07, 0, 0, 0, 0] = .ok (.command 7 0, []) ∧
  decodePort 2 { first := 1, instanceNo := 2, start := 3, length := 4 } = .ok (.encRequest 1 2 3 4) ∧
  decodePort 3 { first := 1, instanceNo := 2, start := 3, length := 4 } = .ok (.encRequestD 1 2 3 4) ∧
  decodePort 4 { first := 1, instanceNo := 2, start := 3, payload := [9] } = .ok (.encSend 1 2 3 [9]) ∧
  decodePort 5 { first := 1, instanceNo := 2, start := 3, payload := [9] } = .ok (.encSendD 1 2 3 [9]) ∧
  decodePort 6 { first := 1, instanceNo := 2 } = .ok (.encCommand 1 2) ∧
  decodePort 7 { first := 1, instanceNo := 2 } = .ok (.encCommandD 1 2)

/-- From R64: a message's length in bytes by its tag, and the largest. The bound is stated for every byte as the tag; for a
tag other than 1, 2 and 3 R64 says nothing, and there it rests on the model's `msglen`, log entry 25 (DESIGN CHOICE). -/
def Obligations.MessageLengths : Prop :=
  (∀ o i s l : Word, (requestBytes o i s l).length = 17 ∧ msglen 1 l.toNat = 17) ∧
  (∀ (o i s : Word) (p : List Byte), (sendBytes o i s p).length = 17 + p.length ∧ msglen 2 p.length = 17 + p.length) ∧
  (∀ (c i : Word) (n : Nat), (commandBytes c i).length = 9 ∧ msglen 3 n = 9) ∧
  (∀ (t : Byte) (l : Word), msglen t l.toNat ≤ 4294967312) ∧ msglen 2 (2 ^ 32 - 1) = 4294967312 ∧ 2 ^ 32 ≤ 4294967312

/-- R66, R67: bytes are rejected for their tag exactly when the first is none of 1, 2, 3, whatever follows. -/
def Obligations.OnlyIllegalTagsAreRejectedByTag : Prop :=
  ∀ (b c : Byte) (bs : List Byte),
    decodeMessage (b :: bs) = .error (.invalidTag c) ↔ (c = b ∧ b ≠ 1 ∧ b ≠ 2 ∧ b ≠ 3)

/-- R72, U12: a selector whose `cmd_kind` is 0 selects no command, and the machine refuses it by name. -/
def Obligations.CommandKindZeroRefused : Prop :=
  ∀ (s : State) (x : Operands) (rest : List Event) (d : Bool),
    s.input = .port (.command (0#2 ++ BitVec.ofBool d) x) :: rest →
    step s = .refused (.noSuchCommand (0#2 ++ BitVec.ofBool d))

/-! ### The encoder -/

/-- R91, R90: ENC_REQUEST returns tag 1 and the four operands, most significant byte first, 17 bytes; with any operand
outside 0 to 2^32 - 1 it returns `FieldOutOfRange` and nothing else. No other part of the state changes. -/
def Obligations.EncRequestReturnsItsBuffer : Prop :=
  (∀ (o n st l : Word) (s : State),
    exec (.encRequest o.toNat n.toNat st.toNat l.toNat) s =
      .next { s with encOut := s.encOut ++ [.result (.ok (1 :: (be32 o ++ be32 n ++ be32 st ++ be32 l)))] } ∧
    (1 :: (be32 o ++ be32 n ++ be32 st ++ be32 l)).length = 17) ∧
  (∀ (o n st l : Int) (s : State),
    ¬((0 ≤ o ∧ o ≤ 4294967295) ∧ (0 ≤ n ∧ n ≤ 4294967295) ∧ (0 ≤ st ∧ st ≤ 4294967295) ∧
      (0 ≤ l ∧ l ≤ 4294967295)) →
    exec (.encRequest o n st l) s = .next { s with encOut := s.encOut ++ [.result (.err .fieldOutOfRange)] })

/-- R92, R90, R102: ENC_SEND returns tag 2, the three operands, the number of payload bytes and the payload verbatim; with
an operand out of range or a payload of 2^32 bytes or more it returns `FieldOutOfRange` and nothing else. -/
def Obligations.EncSendReturnsItsBuffer : Prop :=
  (∀ (o n st l : Word) (p : List Byte) (s : State), p.length = l.toNat →
    exec (.encSend o.toNat n.toNat st.toNat p) s =
      .next { s with
        encOut := s.encOut ++ [.result (.ok (2 :: (be32 o ++ be32 n ++ be32 st ++ be32 l ++ p)))] } ∧
    (2 :: (be32 o ++ be32 n ++ be32 st ++ be32 l ++ p)).length = 17 + p.length) ∧
  (∀ (o n st : Int) (p : List Byte) (s : State),
    ¬((0 ≤ o ∧ o ≤ 4294967295) ∧ (0 ≤ n ∧ n ≤ 4294967295) ∧ (0 ≤ st ∧ st ≤ 4294967295) ∧
      p.length ≤ 4294967295) →
    exec (.encSend o n st p) s = .next { s with encOut := s.encOut ++ [.result (.err .fieldOutOfRange)] })

/-- R93, R90: ENC_COMMAND returns tag 3 and the two operands, 9 bytes; out of range, `FieldOutOfRange`. -/
def Obligations.EncCommandReturnsItsBuffer : Prop :=
  (∀ (c n : Word) (s : State),
    exec (.encCommand c.toNat n.toNat) s =
      .next { s with encOut := s.encOut ++ [.result (.ok (3 :: (be32 c ++ be32 n)))] } ∧
    (3 :: (be32 c ++ be32 n)).length = 9) ∧
  (∀ (c n : Int) (s : State),
    ¬((0 ≤ c ∧ c ≤ 4294967295) ∧ (0 ≤ n ∧ n ≤ 4294967295)) →
    exec (.encCommand c n) s = .next { s with encOut := s.encOut ++ [.result (.err .fieldOutOfRange)] })

/-- R94, R56, R99: ENC_REQUEST.D hands the whole buffer to the transport in one `send` and then answers `Done`; out of
range it answers `FieldOutOfRange` and sends nothing. -/
def Obligations.EncRequestDSendsItsBuffer : Prop :=
  (∀ (o n st l : Word) (s : State),
    exec (.encRequestD o.toNat n.toNat st.toNat l.toNat) s =
      .next { s with
        encOut := s.encOut ++ [.send (1 :: (be32 o ++ be32 n ++ be32 st ++ be32 l)), .result .done] }) ∧
  (∀ (o n st l : Int) (s : State),
    ¬((0 ≤ o ∧ o ≤ 4294967295) ∧ (0 ≤ n ∧ n ≤ 4294967295) ∧ (0 ≤ st ∧ st ≤ 4294967295) ∧
      (0 ≤ l ∧ l ≤ 4294967295)) →
    exec (.encRequestD o n st l) s = .next { s with encOut := s.encOut ++ [.result (.err .fieldOutOfRange)] })

/-- R95, R56, R99: ENC_SEND.D hands header and payload together to the transport in one `send` and then answers `Done`;
out of range it answers `FieldOutOfRange` and sends nothing. -/
def Obligations.EncSendDSendsItsBuffer : Prop :=
  (∀ (o n st l : Word) (p : List Byte) (s : State), p.length = l.toNat →
    exec (.encSendD o.toNat n.toNat st.toNat p) s =
      .next { s with
        encOut := s.encOut ++ [.send (2 :: (be32 o ++ be32 n ++ be32 st ++ be32 l ++ p)), .result .done] }) ∧
  (∀ (o n st : Int) (p : List Byte) (s : State),
    ¬((0 ≤ o ∧ o ≤ 4294967295) ∧ (0 ≤ n ∧ n ≤ 4294967295) ∧ (0 ≤ st ∧ st ≤ 4294967295) ∧
      p.length ≤ 4294967295) →
    exec (.encSendD o n st p) s = .next { s with encOut := s.encOut ++ [.result (.err .fieldOutOfRange)] })

/-- R96, R56, R99: ENC_COMMAND.D hands the 9-byte buffer to the transport in one `send` and then answers `Done`; out of
range it answers `FieldOutOfRange` and sends nothing. -/
def Obligations.EncCommandDSendsItsBuffer : Prop :=
  (∀ (c n : Word) (s : State),
    exec (.encCommandD c.toNat n.toNat) s =
      .next { s with encOut := s.encOut ++ [.send (3 :: (be32 c ++ be32 n)), .result .done] }) ∧
  (∀ (c n : Int) (s : State),
    ¬((0 ≤ c ∧ c ≤ 4294967295) ∧ (0 ≤ n ∧ n ≤ 4294967295)) →
    exec (.encCommandD c n) s = .next { s with encOut := s.encOut ++ [.result (.err .fieldOutOfRange)] })

/-- R97, R24 (frame and purity of the six commands): what a command puts out is fixed by the command alone, whatever the
state; nothing but the encoder's output changes: no register, no byte of PAY, no decoder output; and a buffer-returning
form (`dispatch` 0) sends nothing to the transport. -/
def Obligations.EncoderIsPure : Prop :=
  ∀ i : Instr, i.isWire = false → ∃ new : List EncOutput,
    (∀ s : State, exec i s = .next { s with encOut := s.encOut ++ new }) ∧
    (i.opcode % 2 = 0 → ∀ bytes, .send bytes ∉ new)

/-- R103, R102: whatever buffer a command returns or sends is one complete, well-formed message to the decoder. -/
def Obligations.EncoderBuffersAreMessages : Prop :=
  ∀ (i : Instr) (s t : State) (new : List EncOutput) (bytes : List Byte), i.isWire = false →
    exec i s = .next t → t.encOut = s.encOut ++ new →
    (.result (.ok bytes) ∈ new ∨ .send bytes ∈ new) →
    ∃ m : Instr, m.isWire = true ∧ m.wellFormed = true ∧ decodeMessage bytes = .ok (m, [])

/-- R142, R143: the only error a command ends in is `FieldOutOfRange`, and then it produces no bytes and no `send`. -/
def Obligations.EncoderErrorsAreFieldOutOfRange : Prop :=
  ∀ (i : Instr) (s t : State) (new : List EncOutput) (k : ErrorKind), i.isWire = false →
    exec i s = .next t → t.encOut = s.encOut ++ new → .result (.err k) ∈ new →
    k = .fieldOutOfRange ∧ new = [.result (.err .fieldOutOfRange)]

/-! ### The wire messages -/

/-- From R121, R120 and R33: a REQUEST, executed, leaves its four fields in x[0..3], tag 1 in TAG, the bytes of its last
field in ACC, CNT 0, STATE IDLE and no PAY, presents `onRequest` once, and takes the handler's answer. Its 17 bytes, taken
from IDLE, are 17 steps: the first 16 present nothing and the 17th has that effect, whatever the length field says.
Two parts are the model's and no rule of the spec. What TAG, ACC and x[0..3] contain in IDLE afterwards is "no value" for
R120 and R20; that the contents written are left there is log entry 17 (DEDUCED). That `exec` has the net effect whatever
STATE it is called in is log entry 15 (DESIGN CHOICE), with entry 5. The wait for an answer still to come is entry 7. -/
def Obligations.RequestIsDischarged : Prop :=
  (∀ (o n st l : Word) (s : State), s.abort = false →
    exec (.request o n st l) s =
      .next (takeAnswer { s with
        state := .idle, tag := 1, acc := Acc.ofWord l, cnt := 0, obj := o, inst := n, start := st, len := l,
        pay := [], outputs := s.outputs ++ [.event (.onRequest o n st l)] })) ∧
  (∀ (o n st l : Word) (rest : List Event) (s : State), s.Ready →
    s.input = bytesIn (1 :: (be32 o ++ be32 n ++ be32 st ++ be32 l)) ++ rest →
    (∀ k, k ≤ 16 → ∃ t, runSteps k s = .next t ∧ t.outputs = s.outputs) ∧
    runSteps 17 s =
      .next (takeAnswer { s with
        input := rest, pos := s.pos + 17, state := .idle, tag := 1, acc := Acc.ofWord l, cnt := 0, obj := o, inst := n,
        start := st, len := l, pay := [], outputs := s.outputs ++ [.event (.onRequest o n st l)] }))

/-- From R122, R120 and R33: a SEND of at most `MAX_PAYLOAD` bytes, executed, leaves its fields in x[0..3] (LEN the number
of payload bytes), tag 2 in TAG, the bytes of LEN in ACC, STATE IDLE, CNT 0 and no PAY, presents `onObjectReceived` once
with the payload byte for byte, and takes the handler's answer. Its 17 + length bytes, taken from IDLE, are as many steps:
all but the last present nothing and the last has that effect. Longer SENDs are SendAboveMaxPayloadRefused and
LengthCompletes.
Two parts are the model's and no rule of the spec. What TAG, ACC and x[0..3] contain in IDLE afterwards is "no value" for
R120 and R20; that the contents written are left there is log entry 17 (DEDUCED). That `exec` has the net effect whatever
STATE it is called in is log entry 15 (DESIGN CHOICE), with entry 5. The wait for an answer still to come is entry 7. -/
def Obligations.SendIsDischarged : Prop :=
  (∀ (o n st l : Word) (p : List Byte) (s : State), s.abort = false → p.length = l.toNat → l ≤ s.maxPayload →
    exec (.send o n st p) s =
      .next (takeAnswer { s with
        state := .idle, tag := 2, acc := Acc.ofWord l, cnt := 0, obj := o, inst := n, start := st, len := l,
        pay := [], outputs := s.outputs ++ [.event (.onObjectReceived o n st p)] })) ∧
  (∀ (o n st l : Word) (p : List Byte) (rest : List Event) (s : State), s.Ready → p.length = l.toNat →
    l ≤ s.maxPayload → s.input = bytesIn (2 :: (be32 o ++ be32 n ++ be32 st ++ be32 l ++ p)) ++ rest →
    (∀ k, k < 17 + p.length → ∃ t, runSteps k s = .next t ∧ t.outputs = s.outputs) ∧
    runSteps (17 + p.length) s =
      .next (takeAnswer { s with
        input := rest, pos := s.pos + (17 + p.length), state := .idle, tag := 2, acc := Acc.ofWord l, cnt := 0,
        obj := o, inst := n, start := st, len := l, pay := [],
        outputs := s.outputs ++ [.event (.onObjectReceived o n st p)] }))

/-- From R123, R120 and R33: a COMMAND, executed, leaves its two fields in x[0] and x[1], does not write x[2] and x[3]
(R123), leaves tag 3 in TAG, the bytes of its last field in ACC, STATE IDLE and CNT 0, presents `onCommand` once, and takes
the handler's answer. Its 9 bytes, taken from IDLE, are 9 steps: the first 8 present nothing and the 9th has that effect.
Two parts are the model's and no rule of the spec. What TAG, ACC, x[0] and x[1] contain in IDLE afterwards is "no value"
for R120 and R20; that the contents written are left there is log entry 17 (DEDUCED). That `exec` has the net effect
whatever STATE it is called in is log entry 15 (DESIGN CHOICE), with entry 5. The wait for an answer still to come is
entry 7. -/
def Obligations.CommandIsDischarged : Prop :=
  (∀ (c n : Word) (s : State), s.abort = false →
    exec (.command c n) s =
      .next (takeAnswer { s with
        state := .idle, tag := 3, acc := Acc.ofWord n, cnt := 0, obj := c, inst := n,
        pay := [], outputs := s.outputs ++ [.event (.onCommand c n)] })) ∧
  (∀ (c n : Word) (rest : List Event) (s : State), s.Ready →
    s.input = bytesIn (3 :: (be32 c ++ be32 n)) ++ rest →
    (∀ k, k ≤ 8 → ∃ t, runSteps k s = .next t ∧ t.outputs = s.outputs) ∧
    runSteps 9 s =
      .next (takeAnswer { s with
        input := rest, pos := s.pos + 9, state := .idle, tag := 3, acc := Acc.ofWord n, cnt := 0, obj := c, inst := n,
        pay := [], outputs := s.outputs ++ [.event (.onCommand c n)] }))

/-- Frame of REQUEST, SEND and COMMAND: when one of them gives a next state, POS, the parameters, the input and the
encoder's output are unchanged, earlier decoder outputs stand, and START and LEN are unchanged by a COMMAND. With ABORT
clear, PAY, the only byte memory, does not exist afterwards (R16): no address of it holds a byte.
That `exec` with ABORT set changes nothing at all is the model's, log entry 15 (DESIGN CHOICE), and no rule: R129 speaks of
the bytes of a message, each of which still counts in POS, and the step never executes a message while ABORT is set. -/
def Obligations.WireMessageFrame : Prop :=
  ∀ (i : Instr) (s t : State), i.isWire = true → exec i s = .next t →
    t.pos = s.pos ∧ t.mode = s.mode ∧ t.modeInput = s.modeInput ∧ t.maxPayload = s.maxPayload ∧
    t.input = s.input ∧ t.encOut = s.encOut ∧ s.outputs <+: t.outputs ∧
    (∀ c n, i = .command c n → t.start = s.start ∧ t.len = s.len) ∧
    (s.abort = true → t = s) ∧ (s.abort = false → ∀ a, t.pay.read a = none)

/-- R118, U7: a SEND longer than `MAX_PAYLOAD` is refused by name, unless it is being discarded. -/
def Obligations.SendAboveMaxPayloadRefused : Prop :=
  ∀ (o n st : Word) (p : List Byte) (s : State), s.abort = false → s.maxPayload.toNat < p.length →
    exec (.send o n st p) s = .refused (.payloadTooLarge p.length)

/-- R128, R33, R144: the handler's answer to the event of a message. On `ok` nothing further happens; on `fail` the report
`HandlerFailure` follows the event, ABORT is set, and nothing already presented is undone; with no answer yet, or none to
come, the decoder awaits one. STATE is IDLE in every case.
R181, R182: a handler that takes its time changes when a step happens and never what it does. Where the answer is found
only after `n` looks in vain (the looks are the model's form, log entry 7), the message leads `n` steps later to the state
that it leads to at once where the answer is there at the first look, whatever byte or `EOB` is presented meanwhile. -/
def Obligations.HandlerAnswerFollowsTheEvent : Prop :=
  (∀ (i : Instr) (e : HandlerEvent) (s : State), eventOf i = some e → fitsPayload s.maxPayload i = true →
    s.abort = false → ∃ t, exec i s = .next t ∧ t.state = .idle ∧
      (s.answers = [] →
        t.outputs = s.outputs ++ [.event e] ∧ t.awaiting = true ∧ t.abort = false ∧ t.answers = []) ∧
      (∀ later, s.answers = .notYet :: later →
        t.outputs = s.outputs ++ [.event e] ∧ t.awaiting = true ∧ t.abort = false ∧ t.answers = later) ∧
      (∀ later, s.answers = .ok :: later →
        t.outputs = s.outputs ++ [.event e] ∧ t.awaiting = false ∧ t.abort = false ∧ t.answers = later) ∧
      (∀ later, s.answers = .fail :: later →
        t.outputs = s.outputs ++ [.event e, .report .handlerFailure] ∧ t.awaiting = false ∧ t.abort = true ∧
        t.answers = later)) ∧
  (∀ (i : Instr) (s : State) (n : Nat) (l : List Answer), i.isWire = true → fitsPayload s.maxPayload i = true →
    s.abort = false → (∀ along rest, s.input ≠ .reset along :: rest) →
    (∀ selector x rest, s.input ≠ .port (.command selector x) :: rest) →
    ∃ t, exec i { s with answers := List.replicate n .notYet ++ l } = .next t ∧
      runSteps n t = exec i { s with answers := l })

/-- R121 to R123 (the bytes are the instruction): fed a message's bytes one step each from IDLE, the decoder presents
nothing and takes no answer until the last of them; the run of all of them is the instruction executed once, with POS
advanced by the number of bytes and the input moved past them. -/
def Obligations.MessageBytesRunTheInstruction : Prop :=
  ∀ (i : Instr) (bs : List Byte) (rest : List Event) (s : State),
    i.wellFormed = true → encode i = .wire bs → fitsPayload s.maxPayload i = true → s.Ready →
    s.input = bytesIn bs ++ rest →
    (∀ k, k < bs.length → ∃ t, runSteps k s = .next t ∧ t.outputs = s.outputs ∧ t.answers = s.answers ∧
      t.encOut = s.encOut ∧ t.abort = false ∧ t.awaiting = false ∧ t.input = bytesIn (bs.drop k) ++ rest) ∧
    runSteps bs.length s = exec i { s with pos := s.pos + bs.length, input := rest }

/-- R132: what the encoder builds, the decoder delivers. For each kind, the command returns a buffer, and that buffer
presented to a decoder in IDLE, in either `MODE`, with a handler that answers `ok`, yields exactly the one handler event
with the same values, no report, and STATE IDLE afterwards. -/
def Obligations.EncodedBuffersRoundTrip : Prop :=
  (∀ (o n st l : Word) (e : State), ∃ out,
    exec (.encRequest o.toNat n.toNat st.toNat l.toNat) e = .next { e with encOut := e.encOut ++ [.result (.ok out)] } ∧
    ∀ (s : State) (rest : List Event) (later : List Answer), s.Ready → s.input = bufferIn out ++ rest →
      s.answers = .ok :: later →
      ∃ t, runSteps (out.length + 1) s = .next t ∧ t.outputs = s.outputs ++ [.event (.onRequest o n st l)] ∧
        t.Ready ∧ t.input = rest ∧ t.answers = later) ∧
  (∀ (o n st : Word) (p : List Byte) (e : State), p.length < 2 ^ 32 → ∃ out,
    exec (.encSend o.toNat n.toNat st.toNat p) e = .next { e with encOut := e.encOut ++ [.result (.ok out)] } ∧
    ∀ (s : State) (rest : List Event) (later : List Answer), s.Ready → p.length ≤ s.maxPayload.toNat →
      s.input = bufferIn out ++ rest → s.answers = .ok :: later →
      ∃ t, runSteps (out.length + 1) s = .next t ∧ t.outputs = s.outputs ++ [.event (.onObjectReceived o n st p)] ∧
        t.Ready ∧ t.input = rest ∧ t.answers = later) ∧
  (∀ (c n : Word) (e : State), ∃ out,
    exec (.encCommand c.toNat n.toNat) e = .next { e with encOut := e.encOut ++ [.result (.ok out)] } ∧
    ∀ (s : State) (rest : List Event) (later : List Answer), s.Ready → s.input = bufferIn out ++ rest →
      s.answers = .ok :: later →
      ∃ t, runSteps (out.length + 1) s = .next t ∧ t.outputs = s.outputs ++ [.event (.onCommand c n)] ∧
        t.Ready ∧ t.input = rest ∧ t.answers = later)

/-- R133: N messages concatenated in one buffer yield their N events in that order and nothing else; and in PERSISTENT
mode the same holds when the concatenation is cut into buffers at arbitrary points. -/
def Obligations.ConcatenatedMessagesYieldTheirEvents : Prop :=
  ∀ (ms : List Instr) (s : State) (rest : List Event) (later : List Answer),
    (∀ m ∈ ms, m.isWire = true ∧ m.wellFormed = true ∧ fitsPayload s.maxPayload m = true) → s.Ready →
    s.answers = List.replicate ms.length .ok ++ later →
    (s.input = bufferIn (ms.flatMap wireBytes) ++ rest →
      ∃ t, runSteps ((ms.flatMap wireBytes).length + 1) s = .next t ∧
        t.outputs = s.outputs ++ (ms.filterMap eventOf).map .event ∧ t.Ready ∧ t.input = rest ∧ t.answers = later) ∧
    (∀ bufs : List (List Byte), s.mode = .persistent → bufs.flatten = ms.flatMap wireBytes →
      s.input = bufs.flatMap bufferIn ++ rest →
      ∃ t, runSteps (bufs.flatten.length + bufs.length) s = .next t ∧
        t.outputs = s.outputs ++ (ms.filterMap eventOf).map .event ∧ t.Ready ∧ t.input = rest ∧ t.answers = later)

/-- R66, R67, R113, R120, R134, R135: what the byte-at-a-time decoder presents for any buffer whatsoever, with a handler
that answers `ok`, is what cutting the bytes into messages from the front gives (`parseOutputs`): the event of each
complete message, one `InvalidTag` for each byte where a tag should stand and does not, and nothing for bytes that end
inside a message. `MAX_PAYLOAD` is the default, so that no length is refused (R118). -/
def Obligations.DecoderPresentsTheParse : Prop :=
  ∀ (bs : List Byte) (s : State) (rest : List Event), s.Ready → s.maxPayload = Config.defaultMaxPayload →
    (∀ a ∈ s.answers, a = .ok) → bs.length ≤ s.answers.length → s.input = bytesIn bs ++ rest →
    ∃ t, runSteps bs.length s = .next t ∧ t.outputs = s.outputs ++ parseOutputs bs.length bs ∧ t.encOut = s.encOut ∧
      t.abort = false ∧ t.awaiting = false ∧ t.input = rest

/-! ### The decoder's steps -/

/-- R112: in IDLE a byte 1, 2 or 3 goes to TAG, CNT is 0 and STATE is READ_OBJECT_ID; nothing is presented. -/
def Obligations.LegalTagStartsAMessage : Prop :=
  ∀ (s : State) (b : Byte) (rest : List Event), s.Ready → s.input = .port (.byte b) :: rest →
    (b = 1 ∨ b = 2 ∨ b = 3) →
    step s = .next { s with input := rest, pos := s.pos + 1, tag := b, cnt := 0, state := .readObjectId }

/-- R113, R141: in IDLE any other byte is reported as `InvalidTag` and skipped; no register changes but POS. -/
def Obligations.IllegalTagIsReportedAndSkipped : Prop :=
  ∀ (s : State) (b : Byte) (rest : List Event), s.Ready → s.input = .port (.byte b) :: rest →
    b ≠ 1 → b ≠ 2 → b ≠ 3 →
    step s = .next { s with
      input := rest, pos := s.pos + 1, outputs := s.outputs ++ [.report (.invalidTag b)] }

/-- R114, first three bytes of a field: the byte goes to ACC[CNT] and CNT counts it; nothing else changes but POS, and
nothing is presented, whatever the byte. -/
def Obligations.HeaderByteIsAccumulated : Prop :=
  ∀ (s : State) (b : Byte) (rest : List Event), s.state.isHeader = true → s.abort = false → s.awaiting = false →
    s.input = .port (.byte b) :: rest → s.cnt < 3 →
    ∃ acc : Acc, acc.bytes = s.acc.bytes.set s.cnt.toNat b ∧
      step s = .next { s with input := rest, pos := s.pos + 1, acc := acc, cnt := s.cnt + 1 }

/-- R115, R117 (with R114): the fourth byte of objectId, and of start, writes x[0], and x[2], with the value of the four
bytes, sets CNT to 0 and moves STATE on; nothing is presented, for every TAG. -/
def Obligations.ObjectIdAndStartComplete : Prop :=
  ∀ (s : State) (b : Byte) (rest : List Event), s.abort = false → s.awaiting = false →
    s.input = .port (.byte b) :: rest → s.cnt = 3 →
    (s.state = .readObjectId →
      step s = .next { s with
        input := rest, pos := s.pos + 1, acc := { s.acc with b3 := b }, cnt := 0,
        obj := unbe32 s.acc.b0 s.acc.b1 s.acc.b2 b, state := .readInstanceNo }) ∧
    (s.state = .readStart →
      step s = .next { s with
        input := rest, pos := s.pos + 1, acc := { s.acc with b3 := b }, cnt := 0,
        start := unbe32 s.acc.b0 s.acc.b1 s.acc.b2 b, state := .readLength })

/-- From R116, R114, R120 and R33: the fourth byte of instanceNo writes x[1]. With TAG 3 the COMMAND is discharged and the
handler's answer is taken; with any other TAG, STATE is READ_START and nothing is presented.
What TAG, ACC and x[0..3] contain in IDLE after the discharge is the
model's and no rule of the spec: R120 and R20 call it no value, and that the contents written are left there is log entry
17 (DEDUCED). The wait for an answer still to come is log entry 7 (DESIGN CHOICE). -/
def Obligations.InstanceNoCompletes : Prop :=
  ∀ (s : State) (b : Byte) (rest : List Event), s.state = .readInstanceNo → s.abort = false → s.awaiting = false →
    s.input = .port (.byte b) :: rest → s.cnt = 3 → s.pay = [] →
    let t : State := { s with
      input := rest, pos := s.pos + 1, acc := { s.acc with b3 := b }, cnt := 0,
      inst := unbe32 s.acc.b0 s.acc.b1 s.acc.b2 b }
    (s.tag = 3 →
      step s = .next (takeAnswer { t with
        state := .idle, outputs := s.outputs ++ [.event (.onCommand s.obj t.inst)] })) ∧
    (s.tag ≠ 3 → step s = .next { t with state := .readStart })

/-- From R118, R114, R120 and R33: the fourth byte of length writes x[3]. With TAG 1 the REQUEST is discharged; with TAG 2
and length 0 the SEND is discharged with an empty payload; either way the handler's answer is taken. With TAG 2 and a
length above `MAX_PAYLOAD` the model refuses, as R118 says; otherwise STATE is READ_DATA with CNT 0 and PAY empty, and
nothing is presented.
What TAG, ACC and x[0..3] contain in IDLE after either discharge is the
model's and no rule of the spec: R120 and R20 call it no value, and that the contents written are left there is log entry
17 (DEDUCED). The wait for an answer still to come is log entry 7 (DESIGN CHOICE). -/
def Obligations.LengthCompletes : Prop :=
  ∀ (s : State) (b : Byte) (rest : List Event), s.state = .readLength → s.abort = false → s.awaiting = false →
    s.input = .port (.byte b) :: rest → s.cnt = 3 → s.pay = [] →
    let t : State := { s with
      input := rest, pos := s.pos + 1, acc := { s.acc with b3 := b }, cnt := 0,
      len := unbe32 s.acc.b0 s.acc.b1 s.acc.b2 b }
    (s.tag = 1 →
      step s = .next (takeAnswer { t with
        state := .idle, outputs := s.outputs ++ [.event (.onRequest s.obj s.inst s.start t.len)] })) ∧
    (s.tag = 2 → t.len = 0 →
      step s = .next (takeAnswer { t with
        state := .idle, outputs := s.outputs ++ [.event (.onObjectReceived s.obj s.inst s.start [])] })) ∧
    (s.tag = 2 → t.len ≠ 0 → s.maxPayload < t.len → step s = .refused (.payloadTooLarge t.len.toNat)) ∧
    (s.tag = 2 → t.len ≠ 0 → t.len ≤ s.maxPayload → step s = .next { t with state := .readData })

/-- From R119, R54, R120 and R33: a payload byte goes to PAY[CNT] and CNT counts it, whatever the byte, every other cell of
PAY reading as before; the byte that makes CNT equal to LEN discharges the SEND with the bytes of PAY in order, and the
handler's answer is taken.
What TAG, ACC and x[0..3] contain in IDLE after the discharge is the
model's and no rule of the spec: R120 and R20 call it no value, and that the contents written are left there is log entry
17 (DEDUCED). The wait for an answer still to come is log entry 7 (DESIGN CHOICE). -/
def Obligations.PayloadByteIsStored : Prop :=
  ∀ (s : State) (b : Byte) (rest : List Event), s.Inv → s.state = .readData → s.input = .port (.byte b) :: rest →
    (s.cnt + 1 ≠ s.len →
      ∃ pay : Memory, step s = .next { s with input := rest, pos := s.pos + 1, pay := pay, cnt := s.cnt + 1 } ∧
        pay.read s.cnt.toNat = some b ∧ ∀ a, a ≠ s.cnt.toNat → pay.read a = s.pay.read a) ∧
    (s.cnt + 1 = s.len →
      step s = .next (takeAnswer { s with
        input := rest, pos := s.pos + 1, state := .idle, cnt := 0, pay := [],
        outputs := s.outputs ++ [.event (.onObjectReceived s.obj s.inst s.start (s.pay.map Prod.snd ++ [b]))] }))

/-- R129: while ABORT is set a byte changes nothing but POS, whatever the byte and whatever STATE is. -/
def Obligations.AbortDiscardsBytes : Prop :=
  ∀ (s : State) (b : Byte) (rest : List Event), s.abort = true → s.awaiting = false →
    s.input = .port (.byte b) :: rest → step s = .next { s with input := rest, pos := s.pos + 1 }

/-- R124, R130, R135: in LEGACY mode `EOB` leaves STATE IDLE, CNT 0, ABORT 0, POS 0 and no PAY, whatever STATE was, and
nothing is presented: a message in progress is lost without trace. Nothing is said of the registers that then hold no
value. -/
def Obligations.LegacyEndOfBuffer : Prop :=
  ∀ (s : State) (rest : List Event), s.mode = .legacy → s.awaiting = false → s.input = .port .eob :: rest →
    ∃ t, step s = .next t ∧ t.state = .idle ∧ t.cnt = 0 ∧ t.abort = false ∧ t.pos = 0 ∧ t.pay = [] ∧
      t.outputs = s.outputs ∧ t.encOut = s.encOut ∧ t.answers = s.answers ∧ t.input = rest ∧ t.awaiting = false ∧
      t.mode = s.mode ∧ t.modeInput = s.modeInput ∧ t.maxPayload = s.maxPayload

/-- From R125: in PERSISTENT mode `EOB` clears ABORT and POS and changes nothing else, and presents nothing; and with ABORT 0
throughout (and every event answered, R182), the state a decoder reaches, and so all it presents, depends only on the
concatenation of the buffers: cut into buffers in any way, the bytes lead to the same state but for POS, in one step more
for each `EOB`, however long the handler takes over its answers. That an answer may take steps of its own is the model's
(log entry 7, DESIGN CHOICE). -/
def Obligations.PersistentBuffersConcatenate : Prop :=
  (∀ (s : State) (rest : List Event), s.mode = .persistent → s.awaiting = false → s.input = .port .eob :: rest →
    step s = .next { s with input := rest, abort := false, pos := 0 }) ∧
  (∀ (bufs : List (List Byte)) (rest : List Event) (s t : State) (n : Nat), s.mode = .persistent → s.abort = false →
    s.awaiting = false → t.abort = false → t.awaiting = false → t.input = rest →
    runSteps n { s with input := bytesIn bufs.flatten ++ rest } = .next t →
    ∃ p, runSteps (n + bufs.length) { s with input := bufs.flatMap bufferIn ++ rest } = .next { t with pos := p })

/-- From R170, R172 and R147: `RESET`, alone or together with another event and in any state, leaves STATE IDLE, CNT 0,
ABORT 0, POS 0 and no PAY, samples `MODE`, awaits no answer (R172), and presents nothing; the other event is not taken, and
what has been presented stands. Nothing is said of the registers that then hold no value.
Two clauses are the model's: that the event presented beside `RESET` is dropped, where the spec says only that it is not
taken, is log entry 9 (DEDUCED); that the list of answers to come is left as it is, is log entry 24 (DESIGN CHOICE). -/
def Obligations.ResetEvent : Prop :=
  ∀ (s : State) (along : Option PortEvent) (rest : List Event), s.input = .reset along :: rest →
    ∃ t, step s = .next t ∧ t.state = .idle ∧ t.cnt = 0 ∧ t.abort = false ∧ t.pos = 0 ∧ t.pay = [] ∧
      t.mode = s.modeInput ∧ t.awaiting = false ∧ t.outputs = s.outputs ∧ t.encOut = s.encOut ∧
      t.answers = s.answers ∧ t.input = rest ∧ t.modeInput = s.modeInput ∧ t.maxPayload = s.maxPayload

/-- R27: what the spec states of the state after reset; `MODE` is what its input line says and `MAX_PAYLOAD` the default
(R4). The registers that hold no value are not spoken of. -/
def Obligations.ResetState : Prop :=
  State.reset.state = .idle ∧ State.reset.cnt = 0 ∧ State.reset.abort = false ∧ State.reset.pos = 0 ∧
  State.reset.pay = [] ∧ State.reset.busy = false ∧ State.reset.pending = 0 ∧
  State.reset.mode = State.reset.modeInput ∧ State.reset.maxPayload.toNat = 2 ^ 32 - 1

/-- R33, R128, R144, U11: while an answer is awaited the decoder takes neither a byte nor `EOB`, and looks for the answer.
Without one it goes on waiting, and if none will ever come it stays as it is; `ok` ends the wait and changes nothing else;
`fail` ends it too, and then `HandlerFailure` is reported and ABORT set. -/
def Obligations.AnswerComesBeforeInput : Prop :=
  ∀ s : State, s.awaiting = true → (∀ along rest, s.input ≠ .reset along :: rest) →
    (∀ selector x rest, s.input ≠ .port (.command selector x) :: rest) →
    (s.answers = [] → step s = .next s) ∧
    (∀ later, s.answers = .notYet :: later → step s = .next { s with answers := later }) ∧
    (∀ later, s.answers = .ok :: later → step s = .next { s with answers := later, awaiting := false }) ∧
    (∀ later, s.answers = .fail :: later → step s = .next { s with
      answers := later, awaiting := false, abort := true, outputs := s.outputs ++ [.report .handlerFailure] })

/-- R172, R182, R170: `RESET` may overtake an answer. The event of the first message stands, its answer is no longer
awaited and never counts, and the event of a message after the `RESET` is presented and answered as ever: `ok`, or `fail`
with `HandlerFailure` after it. (The handler's late answer to the first event is the environment's to leave out, log entry
24; that the `RESET` comes before it is the `notYet`, log entry 7.) -/
def Obligations.ResetOvertakesTheAnswer : Prop :=
  ∀ (i j : Instr) (e f : HandlerEvent) (s : State) (along : Option PortEvent) (rest : List Event) (later : List Answer),
    i.wellFormed = true → j.wellFormed = true → fitsPayload s.maxPayload i = true → fitsPayload s.maxPayload j = true →
    eventOf i = some e → eventOf j = some f → s.Ready →
    s.input = bytesIn (wireBytes i) ++ .reset along :: (bytesIn (wireBytes j) ++ rest) →
    (s.answers = .notYet :: .ok :: later →
      ∃ t, runSteps ((wireBytes i).length + 1 + (wireBytes j).length) s = .next t ∧
        t.outputs = s.outputs ++ [.event e, .event f] ∧ t.Ready ∧ t.mode = s.modeInput ∧ t.input = rest ∧
        t.answers = later) ∧
    (s.answers = .notYet :: .fail :: later →
      ∃ t, runSteps ((wireBytes i).length + 1 + (wireBytes j).length) s = .next t ∧
        t.outputs = s.outputs ++ [.event e, .event f, .report .handlerFailure] ∧ t.abort = true ∧ t.awaiting = false ∧
        t.mode = s.modeInput ∧ t.input = rest ∧ t.answers = later)

/-- R19, R85: `BUSY` is STATE ≠ IDLE; `PENDING` is LEN − CNT, from 1 to LEN and without borrow, in READ_DATA, and 0
otherwise; in LEGACY mode both are 0 after every `EOB`. -/
def Obligations.StatusOutputs : Prop :=
  (∀ s : State, s.busy = true ↔ s.state ≠ .idle) ∧
  (∀ s : State, s.state ≠ .readData → s.pending = 0) ∧
  (∀ s : State, s.Inv → s.state = .readData →
    s.pending.toNat = s.len.toNat - s.cnt.toNat ∧ 1 ≤ s.pending.toNat ∧ s.pending.toNat ≤ s.len.toNat) ∧
  (∀ (s t : State) (rest : List Event), s.mode = .legacy → s.awaiting = false → s.input = .port .eob :: rest →
    step s = .next t → t.busy = false ∧ t.pending = 0)

/-! ### The machine -/

/-- When the bytes consumed so far and the byte presented next are a message, the step that takes that byte is the
message's instruction executed, with POS counting the byte and the input moved past it (R111, R121 to R123; entry 5). -/
def Obligations.StepRunsTheDecodedMessage : Prop :=
  ∀ (s : State) (b : Byte) (rest : List Event) (i : Instr), s.Inv → s.abort = false → s.awaiting = false →
    s.input = .port (.byte b) :: rest → decodeMessage (fetchedBytes s ++ [b]) = .ok (i, []) →
    fitsPayload s.maxPayload i = true →
    step s = exec i { s with input := rest, pos := s.pos + 1 }

/-- When the selector and operands presented next decode to a command, the step is that command executed, with the input
moved past it, whatever the decoder is doing (R31, R98, R25). -/
def Obligations.StepRunsTheDecodedCommand : Prop :=
  ∀ (s : State) (selector : BitVec 3) (x : Operands) (rest : List Event) (i : Instr),
    s.input = .port (.command selector x) :: rest → decodePort selector x = .ok i →
    step s = exec i { s with input := rest }

/-- An instruction placed as `State.withFetchWord` places it is what the next step executes, from a decoder that is not
discarding and awaits no answer (the model's interface, entry 5). -/
def Obligations.PlacedInstructionRunsNext : Prop :=
  ∀ (i : Instr) (s : State), i.wellFormed = true → fitsPayload s.maxPayload i = true →
    (i.isWire = true → step (placeInstr i s) = exec i { s with abort := false, awaiting := false, pos := s.pos + 1 }) ∧
    (i.isWire = false → step (placeInstr i s) = exec i s)

/-- The invariant of Safety.lean (R12, R14 to R17, R20) holds right after reset, in either `MODE`. -/
def Obligations.InvariantAtReset : Prop :=
  State.reset.Inv ∧ ∀ mode events answers, (State.startOf mode events answers).Inv

/-- R12, R14 to R17, R20: every step keeps the invariant: CNT stays in its range, TAG stays legal, PAY holds exactly the
payload bytes received and exists in READ_DATA alone, and ABORT and an awaited answer go with IDLE. -/
def Obligations.EveryStepKeepsTheInvariant : Prop :=
  ∀ s t : State, s.Inv → step s = .next t → t.Inv

/-- U13, R20: from a state that meets the invariant no step faults, and a step is refused only for a SEND longer than
`MAX_PAYLOAD` (R118) or a selector that selects no command (R72). -/
def Obligations.InvariantStatesNeverFault : Prop :=
  ∀ s : State, s.Inv → (∀ f, step s ≠ .fault f) ∧
    ∀ r, step s = .refused r →
      (∃ n, r = .payloadTooLarge n ∧ s.maxPayload.toNat < n) ∨
      (∃ d, r = .noSuchCommand (0#2 ++ BitVec.ofBool d))

/-- From U13: no run from reset, in either `MODE`, with any events and any handler answers, ends in a fault. The faults
are the model's three checks and mark no more than these: an ACC index or a PAY index that does not exist (log entry 14,
DEDUCED) and a PAY cell that has not been written (log entry 12, DEDUCED). TAG, ACC and x[0..3] always hold contents here,
so no fault marks a read of one that holds no value: ValuelessRegistersAreNotRead says that of them. -/
def Obligations.RunsFromResetNeverFault : Prop :=
  ∀ mode events answers k f, runSteps k (State.startOf mode events answers) ≠ .fault f

/-- R20: no step reads a register that holds no value in its STATE. Two states, of any kind, that differ only in such
contents (`State.SameValues`, R20's table) step alike: to next states that again differ in nothing else, to the same fault,
or to the same refusal. So no output, answer, memory byte or register that holds a value depends on those contents. -/
def Obligations.ValuelessRegistersAreNotRead : Prop :=
  ∀ s t : State, s.SameValues t →
    (∀ u, step s = .next u → ∃ v, step t = .next v ∧ u.SameValues v) ∧
    (∀ f, step s = .fault f → step t = .fault f) ∧
    (∀ r, step s = .refused r → step t = .refused r)

/-- R20, R27: what TAG, ACC and x[0..3] contain after reset is never observed. From a start with any other contents in
them, a run of any length in either `MODE`, with any events and answers, has the same observable result and the same
encoder output, or the same refusal. So nothing rests on the contents the model gives them (log entry 1, DESIGN CHOICE). -/
def Obligations.ResetContentsAreNeverObserved : Prop :=
  ∀ mode events answers tag acc obj inst start len k,
    (∀ u, runSteps k (State.startOf mode events answers) = .next u →
      ∃ v, runSteps k ((State.startOf mode events answers).withRegisters tag acc obj inst start len) = .next v ∧
        v.observed = u.observed ∧ v.encOut = u.encOut) ∧
    (∀ r, runSteps k (State.startOf mode events answers) = .refused r →
      runSteps k ((State.startOf mode events answers).withRegisters tag acc obj inst start len) = .refused r)

/-- PAY keeps its canonical form, addresses strictly rising, in every step from every state (the model's form of memory,
entry 12). -/
def Obligations.EveryStepKeepsPayCanonical : Prop :=
  ∀ s t : State, s.pay.wf = true → step s = .next t → t.pay.wf = true

/-- R4, R151: no step changes `MAX_PAYLOAD` or the `MODE` line, and `MODE` changes in no step but a `RESET`, which samples
the line. -/
def Obligations.ParametersAreStatic : Prop :=
  ∀ s t : State, step s = .next t →
    t.maxPayload = s.maxPayload ∧ t.modeInput = s.modeInput ∧
    (t.mode = s.mode ∨ ∃ along, s.input = .reset along :: t.input ∧ t.mode = s.modeInput)

/-- R136, R50, R98: a step takes at most one event, the next one, and takes none only when nothing is presented or an
answer is awaited. -/
def Obligations.StepTakesOneEvent : Prop :=
  ∀ s t : State, step s = .next t →
    (∃ e, s.input = e :: t.input) ∨ (t.input = s.input ∧ (s.input = [] ∨ s.awaiting = true))

/-- R136, R141, R147, R154: a step presents nothing, or one `InvalidTag` report, for an illegal byte in IDLE with ABORT 0
and for nothing else, or one handler event, or one handler event and directly after it `HandlerFailure`, or `HandlerFailure`
alone, for an answer that was awaited; what was presented before stands. The last outcome is the model's: that an answer
may come in a step after the one that presented its event is log entry 7 (DESIGN CHOICE). -/
def Obligations.StepPresentsAtMostOneEvent : Prop :=
  ∀ s t : State, step s = .next t →
    t.outputs = s.outputs ∨
    (∃ b rest, s.input = .port (.byte b) :: rest ∧ isTag b = false ∧ s.state = .idle ∧ s.abort = false ∧
      s.awaiting = false ∧ t.outputs = s.outputs ++ [.report (.invalidTag b)]) ∨
    (∃ b rest e, s.input = .port (.byte b) :: rest ∧ s.abort = false ∧ s.awaiting = false ∧
      t.state = .idle ∧ (t.outputs = s.outputs ++ [.event e] ∨
        (t.outputs = s.outputs ++ [.event e, .report .handlerFailure] ∧ t.abort = true))) ∨
    (s.awaiting = true ∧ t.abort = true ∧ t.outputs = s.outputs ++ [.report .handlerFailure])

/-- R2, R25, R153: the units share nothing. A step that takes no command does the same whatever the encoder has put out,
and puts out nothing for it. A step that takes a command touches the encoder's output alone, and what it appends there is
fixed by the command before any state is chosen, so it reads nothing of the decoder. -/
def Obligations.UnitsDoNotInteract : Prop :=
  (∀ (s t : State) (x : List EncOutput), (∀ c y rest, s.input ≠ .port (.command c y) :: rest) →
    step s = .next t → step { s with encOut := x } = .next { t with encOut := x }) ∧
  (∀ (c : BitVec 3) (y : Operands), ∃ new : List EncOutput, ∀ (s t : State) (rest : List Event),
    s.input = .port (.command c y) :: rest → step s = .next t →
    t = { s with input := rest, encOut := s.encOut ++ new })

/-- R149, R178, R144: after `HandlerFailure` every byte up to the end of the buffer is discarded and nothing is presented,
not even `InvalidTag`; the `EOB` clears ABORT, and the next buffer is decoded from IDLE, in either `MODE`. -/
def Obligations.FailedHandlerCostsTheBuffer : Prop :=
  ∀ (s : State) (bs : List Byte) (rest : List Event), s.Inv → s.abort = true → s.input = bufferIn bs ++ rest →
    ∃ t, runSteps (bs.length + 1) s = .next t ∧ t.Ready ∧ t.outputs = s.outputs ∧ t.answers = s.answers ∧
      t.input = rest ∧ t.pos = 0

/-- R174, R135: in LEGACY mode the bytes of a message cut by `EOB` before its last byte present nothing, and the next
byte is taken in IDLE. -/
def Obligations.SplitMessageIsLostInLegacy : Prop :=
  ∀ (i : Instr) (bs : List Byte) (k : Nat) (rest : List Event) (s : State),
    i.wellFormed = true → encode i = .wire bs → fitsPayload s.maxPayload i = true → k < bs.length →
    s.mode = .legacy → s.Ready → s.input = bufferIn (bs.take k) ++ rest →
    ∃ t, runSteps (k + 1) s = .next t ∧ t.Ready ∧ t.outputs = s.outputs ∧ t.input = rest
end

