-- ==== Sys2Proof/Laws/Codec.lean ====
section
/-! SUPPORT. The integer codec in arithmetic, and what decoding does with encoded fields. -/

namespace Sys2Proof

/-- The byte of a field at bit `k`, as a number. -/
theorem extractByte_toNat (v : Word) (k : Nat) : (v.extractLsb' k 8).toNat = v.toNat / 2 ^ k % 256 := by
  rw [BitVec.extractLsb'_toNat, Nat.shiftRight_eq_div_pow]

/-- The value `unbe32` assembles, as a number: the bytes' bits do not overlap. -/
theorem unbe32_toNat_eq (b0 b1 b2 b3 : Byte) :
    (unbe32 b0 b1 b2 b3).toNat =
      ((b0.toNat * 256 + b1.toNat) * 256 + b2.toNat) * 256 + b3.toNat := by
  have h1 := b1.isLt
  have h2 := b2.isLt
  have h3 := b3.isLt
  unfold unbe32
  rw [BitVec.toNat_append, BitVec.toNat_append, BitVec.toNat_append,
    ← Nat.shiftLeft_add_eq_or_of_lt h3, ← Nat.shiftLeft_add_eq_or_of_lt h2, ← Nat.shiftLeft_add_eq_or_of_lt h1]
  simp only [Nat.shiftLeft_eq]

/-- Assembling the four bytes of a field gives the field. -/
theorem unbe32_extract (v : Word) :
    unbe32 (v.extractLsb' 24 8) (v.extractLsb' 16 8) (v.extractLsb' 8 8) (v.extractLsb' 0 8) = v := by
  apply BitVec.eq_of_toNat_eq
  have := v.isLt
  rw [unbe32_toNat_eq]
  simp only [extractByte_toNat]
  omega

/-- A field assembled from four bytes has those four bytes. -/
theorem extract_unbe32 (b0 b1 b2 b3 : Byte) :
    (unbe32 b0 b1 b2 b3).extractLsb' 24 8 = b0 ∧ (unbe32 b0 b1 b2 b3).extractLsb' 16 8 = b1 ∧
    (unbe32 b0 b1 b2 b3).extractLsb' 8 8 = b2 ∧ (unbe32 b0 b1 b2 b3).extractLsb' 0 8 = b3 := by
  have h0 := b0.isLt
  have h1 := b1.isLt
  have h2 := b2.isLt
  have h3 := b3.isLt
  refine ⟨?_, ?_, ?_, ?_⟩ <;> apply BitVec.eq_of_toNat_eq <;>
    rw [extractByte_toNat, unbe32_toNat_eq] <;> omega

/-- A field is four bytes. -/
@[simp] theorem be32_length (v : Word) : (be32 v).length = 4 := rfl

/-- Taking a field off encoded bytes gives it back. -/
@[simp] theorem takeWord_be32 (v : Word) (rest : List Byte) : takeWord (be32 v ++ rest) = some (v, rest) := by
  simp [be32, takeWord, unbe32_extract]

/-- Taking four fields off encoded bytes gives them back. -/
@[simp] theorem takeFour_be32 (o i s l : Word) (rest : List Byte) :
    takeFour (be32 o ++ (be32 i ++ (be32 s ++ (be32 l ++ rest)))) = some (o, i, s, l, rest) := by
  simp [takeFour]

/-- Only four bytes or more hold a field, and they are its encoding. -/
theorem takeWord_some {bs : List Byte} {v : Word} {rest : List Byte} (h : takeWord bs = some (v, rest)) :
    bs = be32 v ++ rest := by
  match bs, h with
  | b0 :: b1 :: b2 :: b3 :: r, h =>
    simp only [takeWord, Option.some.injEq, Prod.mk.injEq] at h
    obtain ⟨rfl, rfl⟩ := h
    obtain ⟨e0, e1, e2, e3⟩ := extract_unbe32 b0 b1 b2 b3
    simp [be32, e0, e1, e2, e3]

/-- Only sixteen bytes or more hold four fields, and they are their encodings in order. -/
theorem takeFour_some {bs : List Byte} {o i s l : Word} {rest : List Byte}
    (h : takeFour bs = some (o, i, s, l, rest)) : bs = be32 o ++ (be32 i ++ (be32 s ++ (be32 l ++ rest))) := by
  unfold takeFour at h
  split at h
  · cases h
  next h0 =>
    split at h
    · cases h
    next h1 =>
      split at h
      · cases h
      next h2 =>
        split at h
        · cases h
        next h3 =>
          simp only [Option.some.injEq, Prod.mk.injEq] at h
          obtain ⟨rfl, rfl, rfl, rfl, rfl⟩ := h
          rw [takeWord_some h0, takeWord_some h1, takeWord_some h2, takeWord_some h3]

namespace Machine

/-- ACC loaded with a field holds that field. -/
@[simp] theorem Acc.toWord_ofWord (v : Word) : (Acc.ofWord v).toWord = v := unbe32_extract v

/-- The field ACC holds has ACC's bytes. -/
@[simp] theorem Acc.ofWord_toWord (a : Acc) : Acc.ofWord a.toWord = a := by
  obtain ⟨e0, e1, e2, e3⟩ := extract_unbe32 a.b0 a.b1 a.b2 a.b3
  simp [Acc.ofWord, Acc.toWord, e0, e1, e2, e3]

/-- The bytes of ACC loaded with a field are the field's encoding. -/
@[simp] theorem Acc.bytes_ofWord (v : Word) : (Acc.ofWord v).bytes = be32 v := rfl

end Machine

end Sys2Proof
end

