-- ==== Sys2Proof/Laws/State.lean ====
section
/-! SUPPORT. What each update of the state leaves in each field: one lemma per field, true by unfolding. -/

namespace Sys2Proof.Machine

/-! ### Presenting a handler event -/

@[simp] theorem State.emit_state (s : State) (e : HandlerEvent) : (s.emit e).state = s.state := rfl
@[simp] theorem State.emit_tag (s : State) (e : HandlerEvent) : (s.emit e).tag = s.tag := rfl
@[simp] theorem State.emit_acc (s : State) (e : HandlerEvent) : (s.emit e).acc = s.acc := rfl
@[simp] theorem State.emit_cnt (s : State) (e : HandlerEvent) : (s.emit e).cnt = s.cnt := rfl
@[simp] theorem State.emit_obj (s : State) (e : HandlerEvent) : (s.emit e).obj = s.obj := rfl
@[simp] theorem State.emit_inst (s : State) (e : HandlerEvent) : (s.emit e).inst = s.inst := rfl
@[simp] theorem State.emit_start (s : State) (e : HandlerEvent) : (s.emit e).start = s.start := rfl
@[simp] theorem State.emit_len (s : State) (e : HandlerEvent) : (s.emit e).len = s.len := rfl
@[simp] theorem State.emit_pay (s : State) (e : HandlerEvent) : (s.emit e).pay = s.pay := rfl
@[simp] theorem State.emit_abort (s : State) (e : HandlerEvent) : (s.emit e).abort = s.abort := rfl
@[simp] theorem State.emit_pos (s : State) (e : HandlerEvent) : (s.emit e).pos = s.pos := rfl
@[simp] theorem State.emit_mode (s : State) (e : HandlerEvent) : (s.emit e).mode = s.mode := rfl
@[simp] theorem State.emit_modeInput (s : State) (e : HandlerEvent) : (s.emit e).modeInput = s.modeInput := rfl
@[simp] theorem State.emit_maxPayload (s : State) (e : HandlerEvent) : (s.emit e).maxPayload = s.maxPayload := rfl
@[simp] theorem State.emit_awaiting (s : State) (e : HandlerEvent) : (s.emit e).awaiting = s.awaiting := rfl
@[simp] theorem State.emit_input (s : State) (e : HandlerEvent) : (s.emit e).input = s.input := rfl
@[simp] theorem State.emit_answers (s : State) (e : HandlerEvent) : (s.emit e).answers = s.answers := rfl
@[simp] theorem State.emit_outputs (s : State) (e : HandlerEvent) : (s.emit e).outputs = s.outputs ++ [.event e] := rfl
@[simp] theorem State.emit_encOut (s : State) (e : HandlerEvent) : (s.emit e).encOut = s.encOut := rfl

/-! ### Presenting a report -/

@[simp] theorem State.report_state (s : State) (r : Report) : (s.report r).state = s.state := rfl
@[simp] theorem State.report_tag (s : State) (r : Report) : (s.report r).tag = s.tag := rfl
@[simp] theorem State.report_acc (s : State) (r : Report) : (s.report r).acc = s.acc := rfl
@[simp] theorem State.report_cnt (s : State) (r : Report) : (s.report r).cnt = s.cnt := rfl
@[simp] theorem State.report_obj (s : State) (r : Report) : (s.report r).obj = s.obj := rfl
@[simp] theorem State.report_inst (s : State) (r : Report) : (s.report r).inst = s.inst := rfl
@[simp] theorem State.report_start (s : State) (r : Report) : (s.report r).start = s.start := rfl
@[simp] theorem State.report_len (s : State) (r : Report) : (s.report r).len = s.len := rfl
@[simp] theorem State.report_pay (s : State) (r : Report) : (s.report r).pay = s.pay := rfl
@[simp] theorem State.report_abort (s : State) (r : Report) : (s.report r).abort = s.abort := rfl
@[simp] theorem State.report_pos (s : State) (r : Report) : (s.report r).pos = s.pos := rfl
@[simp] theorem State.report_mode (s : State) (r : Report) : (s.report r).mode = s.mode := rfl
@[simp] theorem State.report_modeInput (s : State) (r : Report) : (s.report r).modeInput = s.modeInput := rfl
@[simp] theorem State.report_maxPayload (s : State) (r : Report) : (s.report r).maxPayload = s.maxPayload := rfl
@[simp] theorem State.report_awaiting (s : State) (r : Report) : (s.report r).awaiting = s.awaiting := rfl
@[simp] theorem State.report_input (s : State) (r : Report) : (s.report r).input = s.input := rfl
@[simp] theorem State.report_answers (s : State) (r : Report) : (s.report r).answers = s.answers := rfl
@[simp] theorem State.report_outputs (s : State) (r : Report) : (s.report r).outputs = s.outputs ++ [.report r] := rfl
@[simp] theorem State.report_encOut (s : State) (r : Report) : (s.report r).encOut = s.encOut := rfl

/-! ### Presenting an encoder output -/

@[simp] theorem State.put_state (s : State) (o : EncOutput) : (s.put o).state = s.state := rfl
@[simp] theorem State.put_tag (s : State) (o : EncOutput) : (s.put o).tag = s.tag := rfl
@[simp] theorem State.put_acc (s : State) (o : EncOutput) : (s.put o).acc = s.acc := rfl
@[simp] theorem State.put_cnt (s : State) (o : EncOutput) : (s.put o).cnt = s.cnt := rfl
@[simp] theorem State.put_obj (s : State) (o : EncOutput) : (s.put o).obj = s.obj := rfl
@[simp] theorem State.put_inst (s : State) (o : EncOutput) : (s.put o).inst = s.inst := rfl
@[simp] theorem State.put_start (s : State) (o : EncOutput) : (s.put o).start = s.start := rfl
@[simp] theorem State.put_len (s : State) (o : EncOutput) : (s.put o).len = s.len := rfl
@[simp] theorem State.put_pay (s : State) (o : EncOutput) : (s.put o).pay = s.pay := rfl
@[simp] theorem State.put_abort (s : State) (o : EncOutput) : (s.put o).abort = s.abort := rfl
@[simp] theorem State.put_pos (s : State) (o : EncOutput) : (s.put o).pos = s.pos := rfl
@[simp] theorem State.put_mode (s : State) (o : EncOutput) : (s.put o).mode = s.mode := rfl
@[simp] theorem State.put_modeInput (s : State) (o : EncOutput) : (s.put o).modeInput = s.modeInput := rfl
@[simp] theorem State.put_maxPayload (s : State) (o : EncOutput) : (s.put o).maxPayload = s.maxPayload := rfl
@[simp] theorem State.put_awaiting (s : State) (o : EncOutput) : (s.put o).awaiting = s.awaiting := rfl
@[simp] theorem State.put_input (s : State) (o : EncOutput) : (s.put o).input = s.input := rfl
@[simp] theorem State.put_answers (s : State) (o : EncOutput) : (s.put o).answers = s.answers := rfl
@[simp] theorem State.put_outputs (s : State) (o : EncOutput) : (s.put o).outputs = s.outputs := rfl
@[simp] theorem State.put_encOut (s : State) (o : EncOutput) : (s.put o).encOut = s.encOut ++ [o] := rfl

/-! ### Clearing ABORT -/

@[simp] theorem clearAbort_state (s : State) : (clearAbort s).state = s.state := rfl
@[simp] theorem clearAbort_tag (s : State) : (clearAbort s).tag = s.tag := rfl
@[simp] theorem clearAbort_acc (s : State) : (clearAbort s).acc = s.acc := rfl
@[simp] theorem clearAbort_cnt (s : State) : (clearAbort s).cnt = s.cnt := rfl
@[simp] theorem clearAbort_obj (s : State) : (clearAbort s).obj = s.obj := rfl
@[simp] theorem clearAbort_inst (s : State) : (clearAbort s).inst = s.inst := rfl
@[simp] theorem clearAbort_start (s : State) : (clearAbort s).start = s.start := rfl
@[simp] theorem clearAbort_len (s : State) : (clearAbort s).len = s.len := rfl
@[simp] theorem clearAbort_pay (s : State) : (clearAbort s).pay = s.pay := rfl
@[simp] theorem clearAbort_abort (s : State) : (clearAbort s).abort = false := rfl
@[simp] theorem clearAbort_pos (s : State) : (clearAbort s).pos = s.pos := rfl
@[simp] theorem clearAbort_mode (s : State) : (clearAbort s).mode = s.mode := rfl
@[simp] theorem clearAbort_modeInput (s : State) : (clearAbort s).modeInput = s.modeInput := rfl
@[simp] theorem clearAbort_maxPayload (s : State) : (clearAbort s).maxPayload = s.maxPayload := rfl
@[simp] theorem clearAbort_awaiting (s : State) : (clearAbort s).awaiting = s.awaiting := rfl
@[simp] theorem clearAbort_input (s : State) : (clearAbort s).input = s.input := rfl
@[simp] theorem clearAbort_answers (s : State) : (clearAbort s).answers = s.answers := rfl
@[simp] theorem clearAbort_outputs (s : State) : (clearAbort s).outputs = s.outputs := rfl
@[simp] theorem clearAbort_encOut (s : State) : (clearAbort s).encOut = s.encOut := rfl

/-! ### The fresh automaton -/

@[simp] theorem freshAutomaton_state (s : State) : (freshAutomaton s).state = .idle := rfl
@[simp] theorem freshAutomaton_tag (s : State) : (freshAutomaton s).tag = s.tag := rfl
@[simp] theorem freshAutomaton_acc (s : State) : (freshAutomaton s).acc = s.acc := rfl
@[simp] theorem freshAutomaton_cnt (s : State) : (freshAutomaton s).cnt = 0 := rfl
@[simp] theorem freshAutomaton_obj (s : State) : (freshAutomaton s).obj = s.obj := rfl
@[simp] theorem freshAutomaton_inst (s : State) : (freshAutomaton s).inst = s.inst := rfl
@[simp] theorem freshAutomaton_start (s : State) : (freshAutomaton s).start = s.start := rfl
@[simp] theorem freshAutomaton_len (s : State) : (freshAutomaton s).len = s.len := rfl
@[simp] theorem freshAutomaton_pay (s : State) : (freshAutomaton s).pay = [] := rfl
@[simp] theorem freshAutomaton_abort (s : State) : (freshAutomaton s).abort = false := rfl
@[simp] theorem freshAutomaton_pos (s : State) : (freshAutomaton s).pos = 0 := rfl
@[simp] theorem freshAutomaton_mode (s : State) : (freshAutomaton s).mode = s.mode := rfl
@[simp] theorem freshAutomaton_modeInput (s : State) : (freshAutomaton s).modeInput = s.modeInput := rfl
@[simp] theorem freshAutomaton_maxPayload (s : State) : (freshAutomaton s).maxPayload = s.maxPayload := rfl
@[simp] theorem freshAutomaton_awaiting (s : State) : (freshAutomaton s).awaiting = s.awaiting := rfl
@[simp] theorem freshAutomaton_input (s : State) : (freshAutomaton s).input = s.input := rfl
@[simp] theorem freshAutomaton_answers (s : State) : (freshAutomaton s).answers = s.answers := rfl
@[simp] theorem freshAutomaton_outputs (s : State) : (freshAutomaton s).outputs = s.outputs := rfl
@[simp] theorem freshAutomaton_encOut (s : State) : (freshAutomaton s).encOut = s.encOut := rfl

/-! ### `RESET` -/

@[simp] theorem resetEvent_state (s : State) : (resetEvent s).state = .idle := rfl
@[simp] theorem resetEvent_tag (s : State) : (resetEvent s).tag = s.tag := rfl
@[simp] theorem resetEvent_acc (s : State) : (resetEvent s).acc = s.acc := rfl
@[simp] theorem resetEvent_cnt (s : State) : (resetEvent s).cnt = 0 := rfl
@[simp] theorem resetEvent_obj (s : State) : (resetEvent s).obj = s.obj := rfl
@[simp] theorem resetEvent_inst (s : State) : (resetEvent s).inst = s.inst := rfl
@[simp] theorem resetEvent_start (s : State) : (resetEvent s).start = s.start := rfl
@[simp] theorem resetEvent_len (s : State) : (resetEvent s).len = s.len := rfl
@[simp] theorem resetEvent_pay (s : State) : (resetEvent s).pay = [] := rfl
@[simp] theorem resetEvent_abort (s : State) : (resetEvent s).abort = false := rfl
@[simp] theorem resetEvent_pos (s : State) : (resetEvent s).pos = 0 := rfl
@[simp] theorem resetEvent_mode (s : State) : (resetEvent s).mode = s.modeInput := rfl
@[simp] theorem resetEvent_modeInput (s : State) : (resetEvent s).modeInput = s.modeInput := rfl
@[simp] theorem resetEvent_maxPayload (s : State) : (resetEvent s).maxPayload = s.maxPayload := rfl
@[simp] theorem resetEvent_awaiting (s : State) : (resetEvent s).awaiting = false := rfl
@[simp] theorem resetEvent_input (s : State) : (resetEvent s).input = s.input := rfl
@[simp] theorem resetEvent_answers (s : State) : (resetEvent s).answers = s.answers := rfl
@[simp] theorem resetEvent_outputs (s : State) : (resetEvent s).outputs = s.outputs := rfl
@[simp] theorem resetEvent_encOut (s : State) : (resetEvent s).encOut = s.encOut := rfl

/-! ### Field registers -/

@[simp] theorem State.setField_zero (s : State) (v : Word) : s.setField 0 v = { s with obj := v } := rfl
@[simp] theorem State.setField_one (s : State) (v : Word) : s.setField 1 v = { s with inst := v } := rfl
@[simp] theorem State.setField_two (s : State) (v : Word) : s.setField 2 v = { s with start := v } := rfl
@[simp] theorem State.setField_three (s : State) (v : Word) : s.setField 3 v = { s with len := v } := rfl

/-! ### The handler's answer, by what the handler answers -/

theorem takeAnswer_none {s : State} (h : s.answers = []) : takeAnswer s = { s with awaiting := true } := by
  simp [takeAnswer, h]

theorem takeAnswer_notYet {s : State} {later : List Answer} (h : s.answers = .notYet :: later) :
    takeAnswer s = { s with answers := later, awaiting := true } := by
  simp [takeAnswer, h]

theorem takeAnswer_ok {s : State} {later : List Answer} (h : s.answers = .ok :: later) :
    takeAnswer s = { s with answers := later, awaiting := false } := by
  simp [takeAnswer, h]

theorem takeAnswer_fail {s : State} {later : List Answer} (h : s.answers = .fail :: later) :
    takeAnswer s =
      { s with
        answers := later, awaiting := false, abort := true, outputs := s.outputs ++ [.report .handlerFailure] } := by
  simp [takeAnswer, h, raise, State.report]

/-! ### What taking an answer, and a discharge, never change -/

@[simp] theorem takeAnswer_state (s : State) : (takeAnswer s).state = s.state := by
  unfold takeAnswer; split <;> rfl
@[simp] theorem takeAnswer_tag (s : State) : (takeAnswer s).tag = s.tag := by
  unfold takeAnswer; split <;> rfl
@[simp] theorem takeAnswer_acc (s : State) : (takeAnswer s).acc = s.acc := by
  unfold takeAnswer; split <;> rfl
@[simp] theorem takeAnswer_cnt (s : State) : (takeAnswer s).cnt = s.cnt := by
  unfold takeAnswer; split <;> rfl
@[simp] theorem takeAnswer_obj (s : State) : (takeAnswer s).obj = s.obj := by
  unfold takeAnswer; split <;> rfl
@[simp] theorem takeAnswer_inst (s : State) : (takeAnswer s).inst = s.inst := by
  unfold takeAnswer; split <;> rfl
@[simp] theorem takeAnswer_start (s : State) : (takeAnswer s).start = s.start := by
  unfold takeAnswer; split <;> rfl
@[simp] theorem takeAnswer_len (s : State) : (takeAnswer s).len = s.len := by
  unfold takeAnswer; split <;> rfl
@[simp] theorem takeAnswer_pay (s : State) : (takeAnswer s).pay = s.pay := by
  unfold takeAnswer; split <;> rfl
@[simp] theorem takeAnswer_pos (s : State) : (takeAnswer s).pos = s.pos := by
  unfold takeAnswer; split <;> rfl
@[simp] theorem takeAnswer_mode (s : State) : (takeAnswer s).mode = s.mode := by
  unfold takeAnswer; split <;> rfl
@[simp] theorem takeAnswer_modeInput (s : State) : (takeAnswer s).modeInput = s.modeInput := by
  unfold takeAnswer; split <;> rfl
@[simp] theorem takeAnswer_maxPayload (s : State) : (takeAnswer s).maxPayload = s.maxPayload := by
  unfold takeAnswer; split <;> rfl
@[simp] theorem takeAnswer_input (s : State) : (takeAnswer s).input = s.input := by
  unfold takeAnswer; split <;> rfl
@[simp] theorem takeAnswer_encOut (s : State) : (takeAnswer s).encOut = s.encOut := by
  unfold takeAnswer; split <;> rfl

@[simp] theorem discharge_state (e : HandlerEvent) (s : State) : (discharge e s).state = .idle := by
  simp [discharge]
@[simp] theorem discharge_tag (e : HandlerEvent) (s : State) : (discharge e s).tag = s.tag := by
  simp [discharge]
@[simp] theorem discharge_acc (e : HandlerEvent) (s : State) : (discharge e s).acc = s.acc := by
  simp [discharge]
@[simp] theorem discharge_cnt (e : HandlerEvent) (s : State) : (discharge e s).cnt = 0 := by
  simp [discharge]
@[simp] theorem discharge_obj (e : HandlerEvent) (s : State) : (discharge e s).obj = s.obj := by
  simp [discharge]
@[simp] theorem discharge_inst (e : HandlerEvent) (s : State) : (discharge e s).inst = s.inst := by
  simp [discharge]
@[simp] theorem discharge_start (e : HandlerEvent) (s : State) : (discharge e s).start = s.start := by
  simp [discharge]
@[simp] theorem discharge_len (e : HandlerEvent) (s : State) : (discharge e s).len = s.len := by
  simp [discharge]
@[simp] theorem discharge_pay (e : HandlerEvent) (s : State) : (discharge e s).pay = [] := by
  simp [discharge]
@[simp] theorem discharge_pos (e : HandlerEvent) (s : State) : (discharge e s).pos = s.pos := by
  simp [discharge]
@[simp] theorem discharge_mode (e : HandlerEvent) (s : State) : (discharge e s).mode = s.mode := by
  simp [discharge]
@[simp] theorem discharge_modeInput (e : HandlerEvent) (s : State) : (discharge e s).modeInput = s.modeInput := by
  simp [discharge]
@[simp] theorem discharge_maxPayload (e : HandlerEvent) (s : State) : (discharge e s).maxPayload = s.maxPayload := by
  simp [discharge]
@[simp] theorem discharge_input (e : HandlerEvent) (s : State) : (discharge e s).input = s.input := by
  simp [discharge]
@[simp] theorem discharge_encOut (e : HandlerEvent) (s : State) : (discharge e s).encOut = s.encOut := by
  simp [discharge]

end Sys2Proof.Machine
end

