-- ==== Sys2Proof/Laws/Ops.lean ====
section
/-! SUPPORT. What the shared operations can do, each said once: the byte memory PAY is held in, the accumulator, the
handler's answer and the discharge. -/

namespace Sys2Proof.Machine

/-! ### Byte memory -/

/-- Reading the address just written gives the byte written. -/
@[simp] theorem Memory.read_write_same (m : Memory) (k : Nat) (v : Byte) :
    (Memory.write m k v).read k = some v := by
  induction m with
  | nil => simp [Memory.write, Memory.read]
  | cons c m ih =>
    obtain ⟨a, b⟩ := c
    unfold Memory.write
    split
    · simp [Memory.read]
    · split
      · simp [Memory.read]
      next h => simp [Memory.read, Ne.symm h, ih]

/-- A write leaves every other address alone. -/
theorem Memory.read_write_other (m : Memory) {j k : Nat} (v : Byte) (h : j ≠ k) :
    (Memory.write m k v).read j = m.read j := by
  induction m with
  | nil => simp [Memory.write, Memory.read, Ne.symm h]
  | cons c m ih =>
    obtain ⟨a, b⟩ := c
    unfold Memory.write
    split
    · simp [Memory.read, Ne.symm h]
    · split
      next e => subst e; simp [Memory.read, Ne.symm h]
      next => simp [Memory.read, ih]

/-- A write to an address above `a` keeps a well-formed memory above `a` well-formed behind it. -/
theorem Memory.wf_cons_write (a : Nat) (b : Byte) (m : Memory) (k : Nat) (v : Byte)
    (h : Memory.wf ((a, b) :: m) = true) (hk : a < k) : Memory.wf ((a, b) :: Memory.write m k v) = true := by
  induction m generalizing a b with
  | nil => simp [Memory.write, Memory.wf, hk]
  | cons c m ih =>
    obtain ⟨a', b'⟩ := c
    simp only [Memory.wf, Bool.and_eq_true, decide_eq_true_eq] at h
    obtain ⟨haa, hm⟩ := h
    unfold Memory.write
    split
    next hlt => simp [Memory.wf, hk, hlt, hm]
    next hge =>
      split
      next e =>
        subst e
        cases m with
        | nil => simp [Memory.wf, hk]
        | cons d m =>
          obtain ⟨a'', b''⟩ := d
          simpa [Memory.wf, hk] using hm
      next hne =>
        have := ih a' b' hm (by omega)
        simp [Memory.wf, haa, this]

/-- A write keeps the canonical form. -/
theorem Memory.wf_write (m : Memory) (k : Nat) (v : Byte) (h : m.wf = true) : (Memory.write m k v).wf = true := by
  cases m with
  | nil => simp [Memory.write, Memory.wf]
  | cons c m =>
    obtain ⟨a, b⟩ := c
    unfold Memory.write
    split
    next hlt => simp [Memory.wf, hlt, h]
    next hge =>
      split
      next e =>
        subst e
        cases m with
        | nil => simp [Memory.wf]
        | cons d m =>
          obtain ⟨a', b'⟩ := d
          simpa [Memory.wf] using h
      next hne => exact Memory.wf_cons_write a b m k v h (by omega)

@[simp] theorem Memory.ofBytes_length (k : Nat) (bs : List Byte) : (Memory.ofBytes k bs).length = bs.length := by
  induction bs generalizing k with
  | nil => rfl
  | cons b bs ih => simp [Memory.ofBytes, ih]

@[simp] theorem Memory.ofBytes_bytes (k : Nat) (bs : List Byte) : (Memory.ofBytes k bs).map Prod.snd = bs := by
  induction bs generalizing k with
  | nil => rfl
  | cons b bs ih => simp [Memory.ofBytes, ih]

/-- Writing the next cell of a memory filled from address `k` upward appends the byte. -/
theorem Memory.write_ofBytes (k : Nat) (bs : List Byte) (v : Byte) :
    Memory.write (Memory.ofBytes k bs) (k + bs.length) v = Memory.ofBytes k (bs ++ [v]) := by
  induction bs generalizing k with
  | nil => rfl
  | cons b bs ih =>
    have h := ih (k + 1)
    rw [show k + 1 + bs.length = k + (bs.length + 1) by omega] at h
    simp [Memory.ofBytes, Memory.write, h]

/-- A cell below the first one listed holds no value. -/
theorem Memory.read_ofBytes_below {j k : Nat} (bs : List Byte) (h : j < k) :
    (Memory.ofBytes k bs).read j = none := by
  induction bs generalizing k with
  | nil => rfl
  | cons b bs ih =>
    have : k ≠ j := by omega
    simp [Memory.ofBytes, Memory.read, this, ih (show j < k + 1 by omega)]

/-- A cell in front of the range read does not matter to it. -/
theorem Memory.range_cons {a k : Nat} (b : Byte) (m : Memory) (n : Nat) (h : a < k) :
    Memory.range ((a, b) :: m) k n = Memory.range m k n := by
  induction n generalizing k with
  | zero => rfl
  | succ n ih =>
    have : a ≠ k := by omega
    simp [Memory.range, Memory.read, this, ih (show a < k + 1 by omega)]

/-- Reading back a memory filled from address `k` upward gives its bytes in order. -/
@[simp] theorem Memory.range_ofBytes (k : Nat) (bs : List Byte) :
    Memory.range (Memory.ofBytes k bs) k bs.length = some bs := by
  induction bs generalizing k with
  | nil => rfl
  | cons b bs ih =>
    simp only [List.length_cons, Memory.range, Memory.ofBytes, Memory.read, if_true]
    rw [Memory.range_cons _ _ _ (show k < k + 1 by omega), ih]

/-! ### Accumulator -/

/-- A store to one of ACC's four bytes replaces that byte in arrival order. -/
theorem Acc.set_bytes {a a' : Acc} {k : Nat} {b : Byte} (h : a.set k b = some a') :
    k < 4 ∧ a'.bytes = a.bytes.set k b := by
  match k, h with
  | 0, h | 1, h | 2, h | 3, h => cases h; exact ⟨by omega, rfl⟩

/-- ACC has four bytes and no other. -/
theorem Acc.set_eq_none {a : Acc} {k : Nat} {b : Byte} : a.set k b = none ↔ 4 ≤ k := by
  match k with
  | 0 | 1 | 2 | 3 => simp [Acc.set]
  | k + 4 => simp [Acc.set]

/-! ### The handler's answer and the discharge -/

/-- Looking for an answer does one of four things, by what is there. -/
theorem takeAnswer_cases (s : State) :
    (s.answers = [] ∧ takeAnswer s = { s with awaiting := true }) ∨
    (∃ later, s.answers = .notYet :: later ∧ takeAnswer s = { s with answers := later, awaiting := true }) ∨
    (∃ later, s.answers = .ok :: later ∧ takeAnswer s = { s with answers := later, awaiting := false }) ∨
    (∃ later, s.answers = .fail :: later ∧
      takeAnswer s =
        { s with
          answers := later, awaiting := false, abort := true,
          outputs := s.outputs ++ [.report .handlerFailure] }) := by
  unfold takeAnswer
  split
  next h => exact .inl ⟨h, rfl⟩
  next later h => exact .inr (.inl ⟨later, h, rfl⟩)
  next later h => exact .inr (.inr (.inl ⟨later, h, rfl⟩))
  next later h => exact .inr (.inr (.inr ⟨later, h, rfl⟩))

/-- A discharge presents its event, leaves the decoder in IDLE without PAY, and takes the answer. -/
theorem discharge_eq (e : HandlerEvent) (s : State) :
    discharge e s =
      takeAnswer { s with state := .idle, cnt := 0, pay := [], outputs := s.outputs ++ [.event e] } := rfl

/-- A discharge whose event is never answered. -/
theorem discharge_none {e : HandlerEvent} {s : State} (h : s.answers = []) :
    discharge e s =
      { s with state := .idle, cnt := 0, pay := [], outputs := s.outputs ++ [.event e], awaiting := true } :=
  takeAnswer_none (s := { s with state := .idle, cnt := 0, pay := [], outputs := s.outputs ++ [.event e] }) h

/-- A discharge whose event is not answered yet. -/
theorem discharge_notYet {e : HandlerEvent} {s : State} {later : List Answer} (h : s.answers = .notYet :: later) :
    discharge e s =
      { s with
        state := .idle, cnt := 0, pay := [], outputs := s.outputs ++ [.event e], answers := later,
        awaiting := true } :=
  takeAnswer_notYet (s := { s with state := .idle, cnt := 0, pay := [], outputs := s.outputs ++ [.event e] }) h

/-- A discharge whose event is answered `ok`. -/
theorem discharge_ok {e : HandlerEvent} {s : State} {later : List Answer} (h : s.answers = .ok :: later) :
    discharge e s =
      { s with
        state := .idle, cnt := 0, pay := [], outputs := s.outputs ++ [.event e], answers := later,
        awaiting := false } :=
  takeAnswer_ok (s := { s with state := .idle, cnt := 0, pay := [], outputs := s.outputs ++ [.event e] }) h

/-- A discharge whose event is answered `fail`. -/
theorem discharge_fail {e : HandlerEvent} {s : State} {later : List Answer} (h : s.answers = .fail :: later) :
    discharge e s =
      { s with
        state := .idle, cnt := 0, pay := [], outputs := s.outputs ++ [.event e] ++ [.report .handlerFailure],
        answers := later, awaiting := false, abort := true } :=
  takeAnswer_fail (s := { s with state := .idle, cnt := 0, pay := [], outputs := s.outputs ++ [.event e] }) h

/-- The four ways a discharge can end, by what is there when the decoder looks for the answer. -/
theorem answers_cases (s : State) :
    s.answers = [] ∨ (∃ later, s.answers = .notYet :: later) ∨ (∃ later, s.answers = .ok :: later) ∨
    ∃ later, s.answers = .fail :: later := by
  rcases takeAnswer_cases s with ⟨h, -⟩ | ⟨later, h, -⟩ | ⟨later, h, -⟩ | ⟨later, h, -⟩
  · exact .inl h
  · exact .inr (.inl ⟨later, h⟩)
  · exact .inr (.inr (.inl ⟨later, h⟩))
  · exact .inr (.inr (.inr ⟨later, h⟩))

end Sys2Proof.Machine
end

