-- ==== Sys2Proof/Laws/Exec.lean ====
section
/-! SUPPORT. What the two kinds of instruction can do, each said once: a wire message loads its registers and is
discharged, a command puts out what its operands fix. -/

namespace Sys2Proof.Machine

/-- The state a wire message is discharged in: its registers loaded, everything else as it was. -/
def loaded : Instr → State → State
  | .request o n st l, s =>
    { s with tag := tagRequest, acc := Acc.ofWord l, obj := o, inst := n, start := st, len := l }
  | .send o n st p, s =>
    { s with
      tag := tagSend, acc := Acc.ofWord (BitVec.ofNat 32 p.length), obj := o, inst := n, start := st,
      len := BitVec.ofNat 32 p.length }
  | .command c n, s => { s with tag := tagCommand, acc := Acc.ofWord n, obj := c, inst := n }
  | .encRequest .., s | .encRequestD .., s | .encSend .., s | .encSendD .., s | .encCommand .., s
  | .encCommandD .., s => s

/-- A wire message that is not being discarded and fits is its discharge. -/
theorem exec_wire {i : Instr} {e : HandlerEvent} {s : State} (he : eventOf i = some e) (ha : s.abort = false)
    (hf : fitsPayload s.maxPayload i = true) : exec i s = .next (discharge e (loaded i s)) := by
  cases i with
  | request => cases he; simp only [exec, execRequest, ha, loaded]; rfl
  | send o n st p =>
    cases he
    have hle : ¬ s.maxPayload.toNat < p.length := by simpa [fitsPayload] using hf
    simp only [exec, execSend, ha, if_neg hle, loaded]
    rfl
  | command => cases he; simp only [exec, execCommand, ha, loaded]; rfl
  | _ => cases he

/-- A wire message that is being discarded does nothing. -/
theorem exec_wire_abort {i : Instr} {s : State} (hw : i.isWire = true) (ha : s.abort = true) :
    exec i s = .next s := by
  cases i <;> first | (cases hw; done) | simp [exec, execRequest, execSend, execCommand, ha]

/-- Loading a message changes registers alone. -/
@[simp] theorem loaded_frame (i : Instr) (s : State) :
    (loaded i s).state = s.state ∧ (loaded i s).cnt = s.cnt ∧ (loaded i s).pay = s.pay ∧
    (loaded i s).abort = s.abort ∧ (loaded i s).pos = s.pos ∧ (loaded i s).mode = s.mode ∧
    (loaded i s).modeInput = s.modeInput ∧ (loaded i s).maxPayload = s.maxPayload ∧
    (loaded i s).awaiting = s.awaiting ∧ (loaded i s).input = s.input ∧ (loaded i s).answers = s.answers ∧
    (loaded i s).outputs = s.outputs ∧ (loaded i s).encOut = s.encOut := by
  cases i <;> simp [loaded]

/-- A wire message has a handler event and a command has none. -/
theorem eventOf_isSome (i : Instr) : (eventOf i).isSome = i.isWire := by
  cases i <;> rfl

/-- A wire message whose length is above `MAX_PAYLOAD` is a SEND, and is refused. -/
theorem exec_wire_refused {i : Instr} {s : State} (ha : s.abort = false)
    (hf : fitsPayload s.maxPayload i = false) :
    ∃ o n st p, i = .send o n st p ∧ s.maxPayload.toNat < p.length ∧
      exec i s = .refused (.payloadTooLarge p.length) := by
  cases i with
  | send o n st p =>
    have hlt : s.maxPayload.toNat < p.length := by simpa [fitsPayload] using hf
    exact ⟨o, n, st, p, rfl, hlt, by simp [exec, execSend, ha, hlt]⟩
  | _ => cases hf

/-- What the buffer-returning form puts out. -/
def returnedOut (r : Option (List Byte)) : List EncOutput :=
  match r with
  | some out => [.result (.ok out)]
  | none => [.result (.err .fieldOutOfRange)]

/-- What the dispatching form puts out. -/
def dispatchedOut (r : Option (List Byte)) : List EncOutput :=
  match r with
  | some out => [.send out, .result .done]
  | none => [.result (.err .fieldOutOfRange)]

theorem returnBuffer_eq (r : Option (List Byte)) (s : State) :
    returnBuffer r s = { s with encOut := s.encOut ++ returnedOut r } := by
  cases r <;> rfl

theorem dispatchBuffer_eq (r : Option (List Byte)) (s : State) :
    dispatchBuffer r s = { s with encOut := s.encOut ++ dispatchedOut r } := by
  cases r <;> simp [dispatchBuffer, State.put, dispatchedOut, raise]

/-- The buffer a command builds, or none. -/
def builtBuffer : Instr → Option (List Byte)
  | .encRequest o n st l | .encRequestD o n st l => buildRequest o n st l
  | .encSend o n st p | .encSendD o n st p => buildSend o n st p
  | .encCommand c n | .encCommandD c n => buildCommand c n
  | .request .. | .send .. | .command .. => none

/-- A command returns or dispatches the buffer it builds, whatever the state. -/
theorem exec_command {i : Instr} (h : i.isWire = false) :
    (∀ s, exec i s = .next { s with encOut := s.encOut ++ returnedOut (builtBuffer i) }) ∨
    (∀ s, exec i s = .next { s with encOut := s.encOut ++ dispatchedOut (builtBuffer i) }) := by
  cases i <;> first
    | (cases h; done)
    | exact .inl fun s => congrArg Host.Outcome.next (returnBuffer_eq _ s)
    | exact .inr fun s => congrArg Host.Outcome.next (dispatchBuffer_eq _ s)

/-- A 32-bit value, taken as an integer operand, fits and is its own field. -/
@[simp] theorem fits32_toNat (v : Word) : fits32 (v.toNat : Int) = true := by
  have := v.isLt
  simp [fits32]
  omega

@[simp] theorem fieldOf_toNat (v : Word) : fieldOf (v.toNat : Int) = v := by
  simp [fieldOf]

/-- The buffer a command builds is the encoding of a well-formed message. -/
theorem builtBuffer_isMessage {i : Instr} {out : List Byte} (h : builtBuffer i = some out) :
    ∃ m : Instr, m.isWire = true ∧ m.wellFormed = true ∧ encode m = .wire out := by
  have hreq : ∀ {o n st l}, buildRequest o n st l = some out →
      ∃ m : Instr, m.isWire = true ∧ m.wellFormed = true ∧ encode m = .wire out := by
    intro o n st l h
    unfold buildRequest at h
    split at h
    · cases h; exact ⟨.request _ _ _ _, rfl, rfl, rfl⟩
    · cases h
  have hsend : ∀ {o n st p}, buildSend o n st p = some out →
      ∃ m : Instr, m.isWire = true ∧ m.wellFormed = true ∧ encode m = .wire out := by
    intro o n st p h
    unfold buildSend at h
    split at h
    next hf =>
      cases h
      refine ⟨.send _ _ _ _, rfl, ?_, rfl⟩
      simp [allFit, fits32] at hf
      simp [Instr.wellFormed]
      omega
    · cases h
  have hcommand : ∀ {c n}, buildCommand c n = some out →
      ∃ m : Instr, m.isWire = true ∧ m.wellFormed = true ∧ encode m = .wire out := by
    intro c n h
    unfold buildCommand at h
    split at h
    · cases h; exact ⟨.command _ _, rfl, rfl, rfl⟩
    · cases h
  cases i <;> first | cases h | exact hreq h | exact hsend h | exact hcommand h

end Sys2Proof.Machine
end

