-- ==== Sys2Proof/Laws/Step.lean ====
section
/-! SUPPORT. What a step does: which input it takes, what each kind of byte leads to, and how runs compose. -/

namespace Sys2Proof.Machine

/-! ### The step and the fetch -/

theorem step_taken {s t : State} (h : fetch s = .taken t) : step s = .next t := by
  simp [step, h]

theorem step_run {s t : State} {i : Instr} (h : fetch s = .run i t) : step s = exec i t := by
  simp [step, h]

theorem step_fault {s : State} {f : Fault} (h : fetch s = .fault f) : step s = .fault f := by
  simp [step, h]

theorem step_refused {s : State} {r : Refusal} (h : fetch s = .refused r) : step s = .refused r := by
  simp [step, h]

theorem fetch_byte {s : State} {b : Byte} {rest : List Event} (h : s.input = .port (.byte b) :: rest)
    (hw : s.awaiting = false) : fetch s = takeByte b { s with input := rest } := by
  simp [fetch, h, unlessAwaiting, hw]

theorem fetch_eob {s : State} {rest : List Event} (h : s.input = .port .eob :: rest) (hw : s.awaiting = false) :
    fetch s = .taken (endOfBuffer { s with input := rest }) := by
  simp [fetch, h, unlessAwaiting, hw]

theorem fetch_reset {s : State} {along : Option PortEvent} {rest : List Event} (h : s.input = .reset along :: rest) :
    fetch s = .taken (resetEvent { s with input := rest }) := by
  simp [fetch, h]

theorem fetch_command {s : State} {selector : BitVec 3} {x : Operands} {rest : List Event} {i : Instr}
    (h : s.input = .port (.command selector x) :: rest) (hd : decodePort selector x = .ok i) :
    fetch s = .run i { s with input := rest } := by
  simp [fetch, h, hd]

theorem fetch_noInput {s : State} (h : s.input = []) (hw : s.awaiting = false) : fetch s = .taken s := by
  simp [fetch, h, unlessAwaiting, hw]

/-! ### What a byte leads to -/

theorem takeByte_abort {b : Byte} {s : State} (h : s.abort = true) :
    takeByte b s = .taken { s with pos := s.pos + 1 } := by
  simp [takeByte, h]

theorem takeByte_idle {b : Byte} {s : State} (h : s.abort = false) (hs : s.state = .idle) :
    takeByte b s = idleByte b { s with pos := s.pos + 1 } := by
  simp [takeByte, h, hs]

theorem takeByte_header {b : Byte} {s : State} (h : s.abort = false) (hs : s.state.isHeader = true) :
    takeByte b s = headerByte b { s with pos := s.pos + 1 } := by
  cases hst : s.state <;> simp_all [takeByte, AutoState.isHeader]

theorem takeByte_data {b : Byte} {s : State} (h : s.abort = false) (hs : s.state = .readData) :
    takeByte b s = dataByte b { s with pos := s.pos + 1 } := by
  simp [takeByte, h, hs]

/-- A byte taken in IDLE. -/
theorem fetch_idle {s : State} {b : Byte} {rest : List Event} (hr : s.Ready)
    (hi : s.input = .port (.byte b) :: rest) :
    fetch s = idleByte b { s with input := rest, pos := s.pos + 1 } := by
  rw [fetch_byte hi hr.2.2, takeByte_idle (s := { s with input := rest }) hr.2.1 hr.1]

/-- A byte taken in a header state. -/
theorem fetch_header {s : State} {b : Byte} {rest : List Event} (hs : s.state.isHeader = true)
    (ha : s.abort = false) (hw : s.awaiting = false) (hi : s.input = .port (.byte b) :: rest) :
    fetch s = headerByte b { s with input := rest, pos := s.pos + 1 } := by
  rw [fetch_byte hi hw, takeByte_header (s := { s with input := rest }) ha hs]

/-- A byte taken in READ_DATA. -/
theorem fetch_data {s : State} {b : Byte} {rest : List Event} (hs : s.state = .readData)
    (ha : s.abort = false) (hw : s.awaiting = false) (hi : s.input = .port (.byte b) :: rest) :
    fetch s = dataByte b { s with input := rest, pos := s.pos + 1 } := by
  rw [fetch_byte hi hw, takeByte_data (s := { s with input := rest }) ha hs]

/-- A byte taken while the buffer is being discarded. -/
theorem fetch_discarded {s : State} {b : Byte} {rest : List Event} (ha : s.abort = true)
    (hw : s.awaiting = false) (hi : s.input = .port (.byte b) :: rest) :
    fetch s = .taken { s with input := rest, pos := s.pos + 1 } := by
  rw [fetch_byte hi hw, takeByte_abort (s := { s with input := rest }) ha]

/-- ACC has four bytes. -/
theorem headerByte_outOfRange {b : Byte} {s : State} (h : s.acc.set s.cnt.toNat b = none) :
    headerByte b s = .fault .accOutOfRange := by
  simp only [headerByte, h]

/-- The byte that makes CNT 4 writes the field. -/
theorem headerByte_fourth {b : Byte} {s : State} {acc : Acc} (h : s.acc.set s.cnt.toNat b = some acc)
    (h4 : s.cnt + 1 = 4) :
    headerByte b s =
      completeField (State.setField { s with acc := acc, cnt := 0 } (s.state.number - 1) acc.toWord) := by
  simp only [headerByte, h, if_pos h4]

/-- Any other byte of a field is stored and counted. -/
theorem headerByte_more {b : Byte} {s : State} {acc : Acc} (h : s.acc.set s.cnt.toNat b = some acc)
    (h4 : s.cnt + 1 ≠ 4) : headerByte b s = .taken { s with acc := acc, cnt := s.cnt + 1 } := by
  simp only [headerByte, h, if_neg h4]

/-- The first three bytes of a field change ACC and CNT alone. -/
theorem headerByte_stored {b : Byte} {s : State} (h : s.cnt < 3) :
    ∃ acc, s.acc.set s.cnt.toNat b = some acc ∧ headerByte b s = .taken { s with acc := acc, cnt := s.cnt + 1 } := by
  have hlt : s.cnt.toNat < 3 := by simpa [BitVec.lt_def] using h
  have hne : s.cnt + 1 ≠ 4 := by
    intro e
    have := congrArg BitVec.toNat e
    simp [BitVec.toNat_add] at this
    omega
  match hset : s.acc.set s.cnt.toNat b with
  | none => exact absurd (Acc.set_eq_none.mp hset) (by omega)
  | some acc => exact ⟨acc, rfl, by simp only [headerByte, hset, if_neg hne]⟩

/-- The fourth byte of a field completes it. -/
theorem headerByte_completes {b : Byte} {s : State} (h : s.cnt = 3) :
    headerByte b s =
      completeField
        (State.setField { s with acc := { s.acc with b3 := b }, cnt := 0 } (s.state.number - 1)
          (unbe32 s.acc.b0 s.acc.b1 s.acc.b2 b)) := by
  simp [headerByte, h, Acc.set, Acc.toWord]

/-! What completing a field leads to, by STATE, TAG and the length. -/

theorem completeField_idle {s : State} (h : s.state = .idle) : completeField s = .taken s := by
  simp only [completeField, h]

theorem completeField_data {s : State} (h : s.state = .readData) : completeField s = .taken s := by
  simp only [completeField, h]

theorem completeField_objectId {s : State} (h : s.state = .readObjectId) :
    completeField s = .taken { s with state := .readInstanceNo } := by
  simp only [completeField, h]

theorem completeField_command {s : State} (h : s.state = .readInstanceNo) (ht : s.tag = tagCommand) :
    completeField s = .run (.command s.obj s.inst) s := by
  simp only [completeField, h, if_pos ht]

theorem completeField_instanceNo {s : State} (h : s.state = .readInstanceNo) (ht : s.tag ≠ tagCommand) :
    completeField s = .taken { s with state := .readStart } := by
  simp only [completeField, h, if_neg ht]

theorem completeField_start {s : State} (h : s.state = .readStart) :
    completeField s = .taken { s with state := .readLength } := by
  simp only [completeField, h]

theorem completeField_request {s : State} (h : s.state = .readLength) (ht : s.tag = tagRequest) :
    completeField s = .run (.request s.obj s.inst s.start s.len) s := by
  simp only [completeField, h, if_pos ht]

theorem completeField_emptySend {s : State} (h : s.state = .readLength) (ht : s.tag ≠ tagRequest)
    (hl : s.len = 0) : completeField s = .run (.send s.obj s.inst s.start []) s := by
  simp only [completeField, h, if_neg ht, if_pos hl]

theorem completeField_tooLong {s : State} (h : s.state = .readLength) (ht : s.tag ≠ tagRequest)
    (hl : s.len ≠ 0) (hm : s.maxPayload < s.len) :
    completeField s = .refused (.payloadTooLarge s.len.toNat) := by
  simp only [completeField, h, if_neg ht, if_neg hl, if_pos hm]

theorem completeField_payload {s : State} (h : s.state = .readLength) (ht : s.tag ≠ tagRequest)
    (hl : s.len ≠ 0) (hm : ¬ s.maxPayload < s.len) :
    completeField s = .taken { s with pay := [], cnt := 0, state := .readData } := by
  simp only [completeField, h, if_neg ht, if_neg hl, if_neg hm]

/-- A payload byte that is not the last one is stored in PAY and counted. -/
theorem dataByte_more {b : Byte} {s : State} (h : s.cnt < s.len) (hl : s.cnt + 1 ≠ s.len) :
    dataByte b s = .taken { s with pay := s.pay.write s.cnt.toNat b, cnt := s.cnt + 1 } := by
  simp only [dataByte, if_pos h, if_neg hl]

/-- The last payload byte runs the SEND with the bytes PAY then holds. -/
theorem dataByte_last {b : Byte} {s : State} {payload : List Byte} (h : s.cnt < s.len) (hl : s.cnt + 1 = s.len)
    (hp : Memory.range (s.pay.write s.cnt.toNat b) 0 s.len.toNat = some payload) :
    dataByte b s =
      .run (.send s.obj s.inst s.start payload)
        { s with pay := s.pay.write s.cnt.toNat b, cnt := s.cnt + 1 } := by
  simp only [dataByte, if_pos h, if_pos hl, hp]

/-- A cell of PAY that holds no value stops the last payload byte. -/
theorem dataByte_unwritten {b : Byte} {s : State} (h : s.cnt < s.len) (hl : s.cnt + 1 = s.len)
    (hp : Memory.range (s.pay.write s.cnt.toNat b) 0 s.len.toNat = none) :
    dataByte b s = .fault .payUnwritten := by
  simp only [dataByte, if_pos h, if_pos hl, hp]

/-- A payload byte behind the end of PAY stops. -/
theorem dataByte_outOfRange {b : Byte} {s : State} (h : ¬ s.cnt < s.len) :
    dataByte b s = .fault .payOutOfRange := by
  simp only [dataByte, if_neg h]

/-! ### Runs -/

@[simp] theorem runSteps_zero (s : State) : runSteps 0 s = .next s := rfl

theorem runSteps_succ (k : Nat) (s : State) :
    runSteps (k + 1) s =
      match step s with
      | .next t => runSteps k t
      | .fault f => .fault f
      | .refused r => .refused r := rfl

theorem runSteps_next {k : Nat} {s t : State} (h : step s = .next t) : runSteps (k + 1) s = runSteps k t := by
  rw [runSteps_succ, h]

/-- One step of the host's run. -/
theorem hostRun_succ {M : Host.Core} (k : Nat) (s : M.State) :
    (∀ t, M.step s = .next t → M.run (k + 1) s = M.run k t) ∧
    (∀ f, M.step s = .fault f → M.run (k + 1) s = .fault f) ∧
    (∀ r, M.step s = .refused r → M.run (k + 1) s = .refused r) := by
  refine ⟨?_, ?_, ?_⟩ <;> intro x h <;> simp [Host.Core.run, h]

/-- The run of the statements is the host's. -/
theorem runSteps_eq_core (k : Nat) (s : State) : runSteps k s = Host.Core.run Sys2Proof.core k s := by
  induction k generalizing s with
  | zero => rfl
  | succ k ih =>
    obtain ⟨hn, hf, hr⟩ := hostRun_succ (M := Sys2Proof.core) k s
    rw [runSteps_succ]
    match h : step s with
    | .next t => exact (ih t).trans (hn t h).symm
    | .fault f => exact (hf f h).symm
    | .refused r => exact (hr r h).symm
/-- A run that reaches a state goes on from there. -/
theorem runSteps_add {j k : Nat} {s t : State} (h : runSteps j s = .next t) :
    runSteps (j + k) s = runSteps k t := by
  induction j generalizing s with
  | zero => cases h; simp
  | succ j ih =>
    rw [runSteps_succ] at h
    rw [show j + 1 + k = (j + k) + 1 by omega, runSteps_succ]
    split at h
    next u hu => exact ih h
    all_goals cases h

/-- What every step keeps, every run keeps. -/
theorem runSteps_keeps {P : State → Prop} (hstep : ∀ s t, P s → step s = .next t → P t) {k : Nat} {s t : State}
    (hs : P s) (h : runSteps k s = .next t) : P t := by
  induction k generalizing s with
  | zero => cases h; exact hs
  | succ k ih =>
    rw [runSteps_succ] at h
    split at h
    next u hu => exact ih (hstep s u hs hu) h
    all_goals cases h

end Sys2Proof.Machine
end

