-- ==== Sys2Proof/Laws/Cases.lean ====
section
/-! SUPPORT. Inversion: everything a byte can lead to, and everything a step can lead to, each said once, guards
included; statements about all steps are read off these without unfolding the step again. -/

namespace Sys2Proof.Machine

/-- Completing a field moves STATE on, enters READ_DATA, runs a wire message, or is refused for its length. -/
theorem completeField_cases (s : State) :
    (∃ st, completeField s = .taken { s with state := st }) ∨
    completeField s = .taken { s with pay := [], cnt := 0, state := .readData } ∨
    (∃ i, i.isWire = true ∧ completeField s = .run i s) ∨
    (∃ n, s.maxPayload.toNat < n ∧ completeField s = .refused (.payloadTooLarge n)) := by
  unfold completeField
  split
  · exact .inl ⟨_, rfl⟩
  · split
    · exact .inr (.inr (.inl ⟨_, rfl, rfl⟩))
    · exact .inl ⟨_, rfl⟩
  · exact .inl ⟨_, rfl⟩
  · split
    · exact .inr (.inr (.inl ⟨_, rfl, rfl⟩))
    · split
      · exact .inr (.inr (.inl ⟨_, rfl, rfl⟩))
      · split
        next h => exact .inr (.inr (.inr ⟨_, by simpa [BitVec.lt_def] using h, rfl⟩))
        next => exact .inr (.inl rfl)
  all_goals exact .inl ⟨s.state, rfl⟩

/-- Two states agree outside the automaton's own registers and the outputs. -/
structure SameOutside (s t : State) : Prop where
  mode : t.mode = s.mode
  modeInput : t.modeInput = s.modeInput
  maxPayload : t.maxPayload = s.maxPayload
  awaiting : t.awaiting = s.awaiting
  input : t.input = s.input
  answers : t.answers = s.answers
  encOut : t.encOut = s.encOut
  abort : t.abort = s.abort
  pos : t.pos = s.pos

/-- Writing a field register changes nothing else. -/
theorem setField_outside (s : State) (f : Nat) (v : Word) :
    SameOutside s (s.setField f v) ∧ (s.setField f v).outputs = s.outputs ∧ (s.setField f v).pay = s.pay ∧
    (s.setField f v).state = s.state ∧ (s.setField f v).cnt = s.cnt := by
  unfold State.setField; split <;> exact ⟨⟨rfl, rfl, rfl, rfl, rfl, rfl, rfl, rfl, rfl⟩, rfl, rfl, rfl, rfl⟩

/-- What a byte of a header field leads to. -/
theorem headerByte_frame (b : Byte) (s : State) :
    (∃ t, headerByte b s = .taken t ∧ SameOutside s t ∧ t.outputs = s.outputs ∧ (t.pay = s.pay ∨ t.pay = [])) ∨
    (∃ i t, headerByte b s = .run i t ∧ i.isWire = true ∧ SameOutside s t ∧ t.outputs = s.outputs) ∨
    (headerByte b s = .fault .accOutOfRange ∧ 4 ≤ s.cnt.toNat) ∨
    (∃ n, headerByte b s = .refused (.payloadTooLarge n) ∧ s.maxPayload.toNat < n) := by
  unfold headerByte
  split
  next h => exact .inr (.inr (.inl ⟨rfl, Acc.set_eq_none.mp h⟩))
  next acc _ =>
    split
    · obtain ⟨ho, h1, h2, h3, h4⟩ := setField_outside { s with acc := acc, cnt := 0 } (s.state.number - 1) acc.toWord
      generalize State.setField { s with acc := acc, cnt := 0 } (s.state.number - 1) acc.toWord = u at *
      rcases completeField_cases u with ⟨st, h⟩ | h | ⟨i, hi, h⟩ | ⟨n, hn, h⟩
      · exact .inl ⟨_, h, ⟨ho.1, ho.2, ho.3, ho.4, ho.5, ho.6, ho.7, ho.8, ho.9⟩, h1, .inl h2⟩
      · exact .inl ⟨_, h, ⟨ho.1, ho.2, ho.3, ho.4, ho.5, ho.6, ho.7, ho.8, ho.9⟩, h1, .inr rfl⟩
      · exact .inr (.inl ⟨i, _, h, hi, ⟨ho.1, ho.2, ho.3, ho.4, ho.5, ho.6, ho.7, ho.8, ho.9⟩, h1⟩)
      · exact .inr (.inr (.inr ⟨n, h, by rw [← show u.maxPayload = s.maxPayload from ho.3]; exact hn⟩))
    · exact .inl ⟨_, rfl, ⟨rfl, rfl, rfl, rfl, rfl, rfl, rfl, rfl, rfl⟩, rfl, .inl rfl⟩

/-- What a byte of the payload leads to. -/
theorem dataByte_frame (b : Byte) (s : State) :
    (∃ t, dataByte b s = .taken t ∧ SameOutside s t ∧ t.outputs = s.outputs ∧ t.pay = s.pay.write s.cnt.toNat b) ∨
    (∃ i t, dataByte b s = .run i t ∧ i.isWire = true ∧ SameOutside s t ∧ t.outputs = s.outputs) ∨
    (dataByte b s = .fault .payUnwritten ∧ s.cnt < s.len ∧ s.cnt + 1 = s.len ∧
      Memory.range (s.pay.write s.cnt.toNat b) 0 s.len.toNat = none) ∨
    (dataByte b s = .fault .payOutOfRange ∧ ¬ s.cnt < s.len) := by
  unfold dataByte
  split
  next hlt =>
    dsimp only
    split
    next he =>
      split
      next hr => exact .inr (.inr (.inl ⟨rfl, hlt, he, hr⟩))
      next => exact .inr (.inl ⟨_, _, rfl, rfl, ⟨rfl, rfl, rfl, rfl, rfl, rfl, rfl, rfl, rfl⟩, rfl⟩)
    next => exact .inl ⟨_, rfl, ⟨rfl, rfl, rfl, rfl, rfl, rfl, rfl, rfl, rfl⟩, rfl, rfl⟩
  next h => exact .inr (.inr (.inr ⟨rfl, h⟩))

/-- What a byte leads to. -/
theorem takeByte_cases (b : Byte) (s : State) :
    (∃ t, takeByte b s = .taken t ∧ SameOutside { s with pos := s.pos + 1 } t ∧
      (t.outputs = s.outputs ∨
        (isTag b = false ∧ s.state = .idle ∧ s.abort = false ∧
          t.outputs = s.outputs ++ [.report (.invalidTag b)])) ∧
      (t.pay = s.pay ∨ t.pay = [] ∨ t.pay = s.pay.write s.cnt.toNat b)) ∨
    (∃ i t, takeByte b s = .run i t ∧ i.isWire = true ∧ SameOutside { s with pos := s.pos + 1 } t ∧
      t.outputs = s.outputs ∧ s.abort = false) ∨
    (∃ f, takeByte b s = .fault f ∧
      ((s.state.isHeader = true ∧ 4 ≤ s.cnt.toNat) ∨
        (s.state = .readData ∧
          (¬ s.cnt < s.len ∨
            (s.cnt + 1 = s.len ∧ Memory.range (s.pay.write s.cnt.toNat b) 0 s.len.toNat = none))))) ∨
    (∃ n, takeByte b s = .refused (.payloadTooLarge n) ∧ s.maxPayload.toNat < n) := by
  by_cases ha : s.abort = false
  · by_cases hi : s.state = .idle
    · rw [takeByte_idle ha hi]
      unfold idleByte
      split
      · exact .inl ⟨_, rfl, ⟨rfl, rfl, rfl, rfl, rfl, rfl, rfl, rfl, rfl⟩, .inl rfl, .inl rfl⟩
      next h => exact .inl ⟨_, rfl, ⟨rfl, rfl, rfl, rfl, rfl, rfl, rfl, rfl, rfl⟩, .inr ⟨by simpa using h, hi, ha, rfl⟩, .inl rfl⟩
    · by_cases hd : s.state = .readData
      · rw [takeByte_data ha hd]
        rcases dataByte_frame b { s with pos := s.pos + 1 } with ⟨t, h, ho, h1, h2⟩ | ⟨i, t, h, hw, ho, h1⟩ | ⟨h, h1, h2, h3⟩ | ⟨h, h1⟩
        · exact .inl ⟨t, h, ho, .inl h1, .inr (.inr h2)⟩
        · exact .inr (.inl ⟨i, t, h, hw, ho, h1, ha⟩)
        · exact .inr (.inr (.inl ⟨_, h, .inr ⟨hd, .inr ⟨h2, h3⟩⟩⟩))
        · exact .inr (.inr (.inl ⟨_, h, .inr ⟨hd, .inl h1⟩⟩))
      · have hh : s.state.isHeader = true := by cases h : s.state <;> simp_all [AutoState.isHeader]
        rw [takeByte_header ha hh]
        rcases headerByte_frame b { s with pos := s.pos + 1 } with ⟨t, h, ho, h1, h2⟩ | ⟨i, t, h, hw, ho, h1⟩ | ⟨h, h1⟩ | ⟨n, h, h1⟩
        · exact .inl ⟨t, h, ho, .inl h1, h2.elim .inl fun e => .inr (.inl e)⟩
        · exact .inr (.inl ⟨i, t, h, hw, ho, h1, ha⟩)
        · exact .inr (.inr (.inl ⟨_, h, .inl ⟨hh, h1⟩⟩))
        · exact .inr (.inr (.inr ⟨n, h, h1⟩))
  · rw [takeByte_abort (by simpa using ha)]
    exact .inl ⟨_, rfl, ⟨rfl, rfl, rfl, rfl, rfl, rfl, rfl, rfl, rfl⟩, .inl rfl, .inl rfl⟩

/-- A wire message that gives a next state while ABORT is clear fits, and is its discharge. -/
theorem exec_wire_next {i : Instr} {s t : State} (hw : i.isWire = true) (ha : s.abort = false)
    (h : exec i s = .next t) :
    ∃ e, eventOf i = some e ∧ fitsPayload s.maxPayload i = true ∧ t = discharge e (loaded i s) := by
  obtain ⟨e, he⟩ : ∃ e, eventOf i = some e := Option.isSome_iff_exists.mp (by rw [eventOf_isSome, hw])
  cases hf : fitsPayload s.maxPayload i
  · obtain ⟨o, n, st, p, -, -, h'⟩ := exec_wire_refused ha hf
    rw [h'] at h; cases h
  · rw [exec_wire he ha hf] at h; cases h
    exact ⟨e, he, rfl, rfl⟩

/-- What the next input can be. -/
theorem events_cases (l : List Event) :
    l = [] ∨ (∃ along rest, l = .reset along :: rest) ∨ (∃ rest, l = .port .eob :: rest) ∨
    (∃ b rest, l = .port (.byte b) :: rest) ∨ ∃ c x rest, l = .port (.command c x) :: rest := by
  match l with
  | [] => exact .inl rfl
  | .reset _ :: _ => exact .inr (.inl ⟨_, _, rfl⟩)
  | .port .eob :: _ => exact .inr (.inr (.inl ⟨_, rfl⟩))
  | .port (.byte _) :: _ => exact .inr (.inr (.inr (.inl ⟨_, _, rfl⟩)))
  | .port (.command ..) :: _ => exact .inr (.inr (.inr (.inr ⟨_, _, _, rfl⟩)))

/-- While an answer is awaited, only `RESET` and commands are taken before it. -/
theorem fetch_awaiting {s : State} (hw : s.awaiting = true) (hr : ∀ along rest, s.input ≠ .reset along :: rest)
    (hc : ∀ c x rest, s.input ≠ .port (.command c x) :: rest) : fetch s = .taken (takeAnswer s) := by
  rcases events_cases s.input with hi | ⟨_, _, hi⟩ | ⟨_, hi⟩ | ⟨_, _, hi⟩ | ⟨_, _, _, hi⟩
  · simp [fetch, hi, unlessAwaiting, hw]
  · exact absurd hi (hr _ _)
  · simp [fetch, hi, unlessAwaiting, hw]
  · simp [fetch, hi, unlessAwaiting, hw]
  · exact absurd hi (hc _ _ _)

/-- So such a step looks for the answer and does nothing else. -/
theorem step_awaiting {s : State} (hw : s.awaiting = true) (hr : ∀ along rest, s.input ≠ .reset along :: rest)
    (hc : ∀ c x rest, s.input ≠ .port (.command c x) :: rest) : step s = .next (takeAnswer s) :=
  step_taken (fetch_awaiting hw hr hc)

/-- Everything a step can lead to, by the input it takes. -/
theorem step_cases {s t : State} (h : step s = .next t) :
    (t = s ∧ s.input = [] ∧ s.awaiting = false) ∨
    (t = takeAnswer s ∧ s.awaiting = true ∧ ∀ c x rest, s.input ≠ .port (.command c x) :: rest) ∨
    (∃ along rest, s.input = .reset along :: rest ∧ t = resetEvent { s with input := rest }) ∨
    (∃ rest, s.input = .port .eob :: rest ∧ s.awaiting = false ∧ t = endOfBuffer { s with input := rest }) ∨
    (∃ c x rest i new, s.input = .port (.command c x) :: rest ∧ decodePort c x = .ok i ∧ i.isWire = false ∧
      t = { s with input := rest, encOut := s.encOut ++ new }) ∨
    (∃ b rest u, s.input = .port (.byte b) :: rest ∧ s.awaiting = false ∧
      SameOutside { s with input := rest, pos := s.pos + 1 } u ∧
      ((takeByte b { s with input := rest } = .taken u ∧ t = u ∧
          (u.outputs = s.outputs ∨
            (isTag b = false ∧ s.state = .idle ∧ s.abort = false ∧
              u.outputs = s.outputs ++ [.report (.invalidTag b)])) ∧
          (u.pay = s.pay ∨ u.pay = [] ∨ u.pay = s.pay.write s.cnt.toNat b)) ∨
        (∃ i e, takeByte b { s with input := rest } = .run i u ∧ s.abort = false ∧ i.isWire = true ∧
          eventOf i = some e ∧ fitsPayload u.maxPayload i = true ∧ u.outputs = s.outputs ∧
          t = discharge e (loaded i u)))) := by
  have hdec : ∀ c x i, decodePort c x = .ok i → i.isWire = false := by
    intro c x i h; unfold decodePort at h; repeat (first | (cases h; done) | (cases h; rfl) | split at h)
  have hcmd : ∀ {u v : State} {i : Instr}, i.isWire = false → exec i u = .next v →
      ∃ new, v = { u with encOut := u.encOut ++ new } := by
    intro u v i hi hx
    rcases exec_command hi with hh | hh <;> (rw [hh u] at hx; cases hx; exact ⟨_, rfl⟩)
  rcases events_cases s.input with hi | ⟨al, rest, hi⟩ | ⟨rest, hi⟩ | ⟨b, rest, hi⟩ | ⟨c, x, rest, hi⟩
  · by_cases hw : s.awaiting = true
    · rw [step_taken (fetch_awaiting hw (by simp [hi]) (by simp [hi]))] at h; cases h
      exact .inr (.inl ⟨rfl, hw, by simp [hi]⟩)
    · rw [step_taken (fetch_noInput hi (by simpa using hw))] at h; cases h
      exact .inl ⟨rfl, hi, by simpa using hw⟩
  · rw [step_taken (fetch_reset hi)] at h; cases h
    exact .inr (.inr (.inl ⟨al, rest, hi, rfl⟩))
  · by_cases hw : s.awaiting = true
    · rw [step_taken (fetch_awaiting hw (by simp [hi]) (by simp [hi]))] at h; cases h
      exact .inr (.inl ⟨rfl, hw, by simp [hi]⟩)
    · have hw : s.awaiting = false := by simpa using hw
      rw [step_taken (fetch_eob hi hw)] at h; cases h
      exact .inr (.inr (.inr (.inl ⟨rest, hi, hw, rfl⟩)))
  · by_cases hw : s.awaiting = true
    · rw [step_taken (fetch_awaiting hw (by simp [hi]) (by simp [hi]))] at h; cases h
      exact .inr (.inl ⟨rfl, hw, by simp [hi]⟩)
    · have hw : s.awaiting = false := by simpa using hw
      have hf := fetch_byte hi hw
      rcases takeByte_cases b { s with input := rest } with
        ⟨u, hu, ho, h1, h2⟩ | ⟨i, u, hu, hiw, ho, h1, ha⟩ | ⟨f, hu, -⟩ | ⟨n, hu, -⟩
      · rw [step_taken (hf.trans hu)] at h; cases h
        exact .inr (.inr (.inr (.inr (.inr ⟨b, rest, _, hi, hw, ho, .inl ⟨hu, rfl, h1, h2⟩⟩))))
      · rw [step_run (hf.trans hu)] at h
        obtain ⟨e, he, hfit, ht⟩ := exec_wire_next hiw (ho.abort.trans ha) h
        exact .inr (.inr (.inr (.inr (.inr
          ⟨b, rest, u, hi, hw, ho, .inr ⟨i, e, hu, ha, hiw, he, hfit, h1, ht⟩⟩))))
      · rw [step_fault (hf.trans hu)] at h; cases h
      · rw [step_refused (hf.trans hu)] at h; cases h
  · cases hd : decodePort c x with
    | error e => simp [step, fetch, hi, hd] at h
    | ok i =>
      rw [step_run (fetch_command hi hd)] at h
      obtain ⟨new, hn⟩ := hcmd (hdec _ _ _ hd) h
      exact .inr (.inr (.inr (.inr (.inl ⟨c, x, rest, i, new, hi, hd, hdec _ _ _ hd, hn⟩))))
end Sys2Proof.Machine
end

