-- ==== Sys2Proof/Laws/Edge.lean ====
section
/-! SUPPORT. POS, the input and the encoder's output are only carried along: what a byte does to everything else, and
which instruction it completes, does not depend on them. -/

namespace Sys2Proof.Machine

/-- `s` with another POS, input and encoder output. -/
def State.withEdge (s : State) (pos : Nat) (input : List Event) (encOut : List EncOutput) : State :=
  { s with pos := pos, input := input, encOut := encOut }

/-- What a fetch leads to, its state changed. -/
def Fetch.mapState (f : State → State) : Fetch → Fetch
  | .taken s => .taken (f s)
  | .run i s => .run i (f s)
  | .fault x => .fault x
  | .refused r => .refused r

/-- A state is itself with its own POS, input and encoder output. -/
theorem State.withEdge_self {s : State} {p : Nat} {i : List Event} {x : List EncOutput} (hp : s.pos = p)
    (hi : s.input = i) (hx : s.encOut = x) : s.withEdge p i x = s := by
  subst hp hi hx; rfl

theorem setField_withEdge (s : State) (f : Nat) (v : Word) (p : Nat) (i : List Event) (x : List EncOutput) :
    (s.withEdge p i x).setField f v = (s.setField f v).withEdge p i x := by
  unfold State.setField
  split <;> rfl

theorem completeField_withEdge (s : State) (p : Nat) (i : List Event) (x : List EncOutput) :
    completeField (s.withEdge p i x) = (completeField s).mapState (·.withEdge p i x) := by
  cases h : s.state
  case idle => rw [completeField_idle h, completeField_idle (s := s.withEdge p i x) h]; rfl
  case readObjectId => rw [completeField_objectId h, completeField_objectId (s := s.withEdge p i x) h]; rfl
  case readInstanceNo =>
    by_cases ht : s.tag = tagCommand
    · rw [completeField_command h ht, completeField_command (s := s.withEdge p i x) h ht]; rfl
    · rw [completeField_instanceNo h ht, completeField_instanceNo (s := s.withEdge p i x) h ht]; rfl
  case readStart => rw [completeField_start h, completeField_start (s := s.withEdge p i x) h]; rfl
  case readLength =>
    by_cases ht : s.tag = tagRequest
    · rw [completeField_request h ht, completeField_request (s := s.withEdge p i x) h ht]; rfl
    by_cases hl : s.len = 0
    · rw [completeField_emptySend h ht hl, completeField_emptySend (s := s.withEdge p i x) h ht hl]; rfl
    by_cases hm : s.maxPayload < s.len
    · rw [completeField_tooLong h ht hl hm, completeField_tooLong (s := s.withEdge p i x) h ht hl hm]; rfl
    · rw [completeField_payload h ht hl hm, completeField_payload (s := s.withEdge p i x) h ht hl hm]; rfl
  case readData => rw [completeField_data h, completeField_data (s := s.withEdge p i x) h]; rfl

theorem headerByte_withEdge (b : Byte) (s : State) (p : Nat) (i : List Event) (x : List EncOutput) :
    headerByte b (s.withEdge p i x) = (headerByte b s).mapState (·.withEdge p i x) := by
  cases hset : s.acc.set s.cnt.toNat b with
  | none => rw [headerByte_outOfRange hset, headerByte_outOfRange (s := s.withEdge p i x) hset]; rfl
  | some acc =>
    by_cases h4 : s.cnt + 1 = 4
    · rw [headerByte_fourth hset h4, headerByte_fourth (s := s.withEdge p i x) hset h4, ← completeField_withEdge,
        ← setField_withEdge]
      rfl
    · rw [headerByte_more hset h4, headerByte_more (s := s.withEdge p i x) hset h4]; rfl

theorem dataByte_withEdge (b : Byte) (s : State) (p : Nat) (i : List Event) (x : List EncOutput) :
    dataByte b (s.withEdge p i x) = (dataByte b s).mapState (·.withEdge p i x) := by
  by_cases hlt : s.cnt < s.len
  · by_cases he : s.cnt + 1 = s.len
    · cases hr : Memory.range (s.pay.write s.cnt.toNat b) 0 s.len.toNat with
      | none => rw [dataByte_unwritten hlt he hr, dataByte_unwritten (s := s.withEdge p i x) hlt he hr]; rfl
      | some payload => rw [dataByte_last hlt he hr, dataByte_last (s := s.withEdge p i x) hlt he hr]; rfl
    · rw [dataByte_more hlt he, dataByte_more (s := s.withEdge p i x) hlt he]; rfl
  · rw [dataByte_outOfRange hlt, dataByte_outOfRange (s := s.withEdge p i x) hlt]; rfl

/-- A byte does the same whatever POS, the input behind it and the encoder's output are, and counts one in POS. -/
theorem takeByte_withEdge (b : Byte) (s : State) (p : Nat) (i : List Event) (x : List EncOutput) :
    takeByte b (s.withEdge p i x) = (takeByte b s).mapState (·.withEdge (p + 1) i x) := by
  by_cases ha : s.abort = true
  · rw [takeByte_abort ha, takeByte_abort (s := s.withEdge p i x) ha]; rfl
  have ha : s.abort = false := by simpa using ha
  by_cases hi : s.state = .idle
  · rw [takeByte_idle ha hi, takeByte_idle (s := s.withEdge p i x) ha hi]
    unfold idleByte; split <;> rfl
  by_cases hd : s.state = .readData
  · rw [takeByte_data ha hd, takeByte_data (s := s.withEdge p i x) ha hd]
    exact dataByte_withEdge b { s with pos := s.pos + 1 } (p + 1) i x
  have hh : s.state.isHeader = true := by cases h : s.state <;> simp_all [AutoState.isHeader]
  rw [takeByte_header ha hh, takeByte_header (s := s.withEdge p i x) ha hh]
  exact headerByte_withEdge b { s with pos := s.pos + 1 } (p + 1) i x

/-- Taking the handler's answer carries them along. -/
theorem takeAnswer_withEdge (s : State) (p : Nat) (i : List Event) (x : List EncOutput) :
    takeAnswer (s.withEdge p i x) = (takeAnswer s).withEdge p i x := by
  rcases takeAnswer_cases s with ⟨h, hh⟩ | ⟨l, h, hh⟩ | ⟨l, h, hh⟩ | ⟨l, h, hh⟩ <;> rw [hh]
  · exact takeAnswer_none (s := s.withEdge p i x) h
  · exact takeAnswer_notYet (s := s.withEdge p i x) h
  · exact takeAnswer_ok (s := s.withEdge p i x) h
  · exact takeAnswer_fail (s := s.withEdge p i x) h

/-- A discharge carries them along. -/
theorem discharge_withEdge (e : HandlerEvent) (s : State) (p : Nat) (i : List Event) (x : List EncOutput) :
    discharge e (s.withEdge p i x) = (discharge e s).withEdge p i x :=
  takeAnswer_withEdge (State.emit { s with state := .idle, cnt := 0, pay := [] } e) p i x

/-- Loading a message carries them along. -/
theorem loaded_withEdge (j : Instr) (s : State) (p : Nat) (i : List Event) (x : List EncOutput) :
    loaded j (s.withEdge p i x) = (loaded j s).withEdge p i x := by
  cases j <;> rfl

/-- So a step that takes a byte does the same in front of any other input. -/
theorem step_byte_withEdge {s t : State} {b : Byte} {rest : List Event} (hw : s.awaiting = false)
    (hi : s.input = .port (.byte b) :: rest) (h : step s = .next t) (p : Nat) (i : List Event) (x : List EncOutput) :
    step (s.withEdge p (.port (.byte b) :: i) x) = .next (t.withEdge (p + 1) i x) := by
  have hf : fetch (s.withEdge p (.port (.byte b) :: i) x) =
      (takeByte b { s with input := rest }).mapState (·.withEdge (p + 1) i x) :=
    (fetch_byte (s := s.withEdge p (.port (.byte b) :: i) x) rfl hw).trans
      (takeByte_withEdge b { s with input := rest } p i x)
  rcases step_cases h with ⟨-, h, -⟩ | ⟨-, h, -⟩ | ⟨al, r, h, -⟩ | ⟨r, h, -⟩ | ⟨c, y, r, j, new, h, -⟩ |
    ⟨b', r, u, hi', -, ho, hb⟩
  · simp [h] at hi
  · simp [h] at hw
  · simp [h] at hi
  · simp [h] at hi
  · simp [h] at hi
  · rw [hi] at hi'; cases hi'
    rcases hb with ⟨hu, rfl, -⟩ | ⟨j, e, hu, ha, hj, he, hfit, -, rfl⟩
    · rw [hu] at hf; exact step_taken hf
    · rw [hu] at hf
      rw [step_run hf]
      change exec j (u.withEdge (p + 1) i x) = _
      rw [exec_wire (s := u.withEdge (p + 1) i x) he (ho.abort.trans ha) hfit, loaded_withEdge, discharge_withEdge]

end Sys2Proof.Machine
end

