-- ==== Sys2Proof/Laws/PerInstr.lean ====
section
/-! SUPPORT. What holds of every instruction as written: what its row of spec/opcode_table.json matches on is what its
encoding carries, the tag byte of a message and the selector of a command (R75). -/

namespace Sys2Proof.Laws.OpcodeMatch

/-- The encoded instruction carries the `match` value of its row. -/
def Statement (i : Instr) : Prop := (encode i).opcode = some i.opcode

theorem request (o i s l : Word) : Statement (.request o i s l) := rfl
theorem send (o i s : Word) (p : List Byte) : Statement (.send o i s p) := rfl
theorem command (c i : Word) : Statement (.command c i) := rfl
theorem encRequest (o i s l : Int) : Statement (.encRequest o i s l) := rfl
theorem encRequestD (o i s l : Int) : Statement (.encRequestD o i s l) := rfl
theorem encSend (o i s : Int) (p : List Byte) : Statement (.encSend o i s p) := rfl
theorem encSendD (o i s : Int) (p : List Byte) : Statement (.encSendD o i s p) := rfl
theorem encCommand (c i : Int) : Statement (.encCommand c i) := rfl
theorem encCommandD (c i : Int) : Statement (.encCommandD c i) := rfl

end Sys2Proof.Laws.OpcodeMatch
end

