-- ==== Sys2Proof/Laws/Run.lean ====
section
/-! SUPPORT. What runs of several bytes do: one header field, and the bytes of a payload. -/

namespace Sys2Proof.Machine

/-- What a step makes of a fetch. -/
def Fetch.execute : Fetch → Host.Outcome State Fault Refusal
  | .taken t => .next t
  | .run i t => exec i t
  | .fault f => .fault f
  | .refused r => .refused r

theorem step_eq_execute (s : State) : step s = (fetch s).execute := by
  unfold step Fetch.execute; rfl

theorem runSteps_one (s : State) : runSteps 1 s = step s := by
  rw [runSteps_succ]; cases step s <;> rfl

/-- A run that reaches a state, and the step from there. -/
theorem runSteps_succ_last {k : Nat} {s t : State} (h : runSteps k s = .next t) : runSteps (k + 1) s = step t := by
  rw [runSteps_add h, runSteps_one]

theorem bytesIn_cons (b : Byte) (bs : List Byte) : bytesIn (b :: bs) = .port (.byte b) :: bytesIn bs := rfl

theorem bytesIn_append (bs cs : List Byte) : bytesIn (bs ++ cs) = bytesIn bs ++ bytesIn cs := by
  simp [bytesIn]

/-- One of the first three bytes of a field. -/
theorem step_field_byte {s : State} {b : Byte} {rest : List Event} {acc : Acc} {k : Nat}
    (hs : s.state.isHeader = true) (ha : s.abort = false) (hw : s.awaiting = false)
    (hi : s.input = .port (.byte b) :: rest) (hc : s.cnt = BitVec.ofNat 32 k) (hk : k < 3)
    (hset : s.acc.set k b = some acc) :
    step s = .next { s with input := rest, pos := s.pos + 1, acc := acc, cnt := BitVec.ofNat 32 (k + 1) } := by
  have hn : s.cnt.toNat = k := by rw [hc, BitVec.toNat_ofNat]; omega
  have h1 : s.cnt + 1 = BitVec.ofNat 32 (k + 1) := by
    apply BitVec.eq_of_toNat_eq; simp [BitVec.toNat_add, hn]
  have h4 : s.cnt + 1 ≠ 4 := by
    intro e; have := congrArg BitVec.toNat e; rw [h1, BitVec.toNat_ofNat] at this; simp at this; omega
  apply step_taken
  rw [fetch_header hs ha hw hi, headerByte_more (acc := acc) (by rw [← hn] at hset; exact hset) (by exact h4), ← h1]

/-- The fourth byte of a field. -/
theorem step_field_last {s : State} {b : Byte} {rest : List Event} (hs : s.state.isHeader = true)
    (ha : s.abort = false) (hw : s.awaiting = false) (hi : s.input = .port (.byte b) :: rest) (hc : s.cnt = 3) :
    step s = (completeField
      (State.setField { s with input := rest, pos := s.pos + 1, acc := { s.acc with b3 := b }, cnt := 0 }
        (s.state.number - 1) (unbe32 s.acc.b0 s.acc.b1 s.acc.b2 b))).execute := by
  rw [step_eq_execute, fetch_header hs ha hw hi, headerByte_completes (by exact hc)]

/-- A field's four bytes, taken one step each in a header state with CNT 0: the first three are collected in ACC, the
fourth completes the field with its value. -/
theorem run_field {s : State} {v : Word} {rest : List Event} (hs : s.state.isHeader = true)
    (ha : s.abort = false) (hw : s.awaiting = false) (hc : s.cnt = 0) (hi : s.input = bytesIn (be32 v) ++ rest) :
    (∀ k, k < 4 → ∃ acc, runSteps k s = .next { s with
      pos := s.pos + k, acc := acc, cnt := BitVec.ofNat 32 k, input := bytesIn ((be32 v).drop k) ++ rest }) ∧
    runSteps 4 s = (completeField
      (State.setField { s with input := rest, pos := s.pos + 4, acc := Acc.ofWord v, cnt := 0 }
        (s.state.number - 1) v)).execute := by
  have h0 : runSteps 0 s = .next { s with
      pos := s.pos + 0, acc := s.acc, cnt := 0#32, input := bytesIn ((be32 v).drop 0) ++ rest } := by
    rw [runSteps_zero, show (0#32) = s.cnt from hc.symm, show bytesIn ((be32 v).drop 0) ++ rest = s.input from hi.symm]
    rfl
  have h1 := (runSteps_succ_last h0).trans (step_field_byte (b := v.extractLsb' 24 8) (k := 0)
    (rest := bytesIn ((be32 v).drop 1) ++ rest) (acc := { s.acc with b0 := v.extractLsb' 24 8 })
    hs ha hw rfl rfl (by omega) rfl)
  have h2 := (runSteps_succ_last h1).trans (step_field_byte (b := v.extractLsb' 16 8) (k := 1)
    (rest := bytesIn ((be32 v).drop 2) ++ rest)
    (acc := { s.acc with b0 := v.extractLsb' 24 8, b1 := v.extractLsb' 16 8 }) hs ha hw rfl rfl (by omega) rfl)
  have h3 := (runSteps_succ_last h2).trans (step_field_byte (b := v.extractLsb' 8 8) (k := 2)
    (rest := bytesIn ((be32 v).drop 3) ++ rest)
    (acc := { s.acc with b0 := v.extractLsb' 24 8, b1 := v.extractLsb' 16 8, b2 := v.extractLsb' 8 8 })
    hs ha hw rfl rfl (by omega) rfl)
  refine ⟨fun k hk => ?_, ?_⟩
  · match k, hk with
    | 0, _ => exact ⟨_, h0⟩
    | 1, _ => exact ⟨_, h1⟩
    | 2, _ => exact ⟨_, h2⟩
    | 3, _ => exact ⟨_, h3⟩
  · have h4 := (runSteps_succ_last h3).trans
      (step_field_last (b := v.extractLsb' 0 8) (rest := rest) hs ha hw rfl rfl)
    rw [unbe32_extract] at h4
    exact h4

/-- Payload bytes, not the last, taken one step each. -/
theorem run_payload_part {s : State} {pre bs : List Byte} {rest : List Event} (hs : s.state = .readData)
    (ha : s.abort = false) (hw : s.awaiting = false) (hp : s.pay = Memory.ofBytes 0 pre)
    (hc : s.cnt = BitVec.ofNat 32 pre.length) (hl : pre.length + bs.length < s.len.toNat)
    (hi : s.input = bytesIn bs ++ rest) :
    runSteps bs.length s = .next { s with
      pos := s.pos + bs.length, pay := Memory.ofBytes 0 (pre ++ bs),
      cnt := BitVec.ofNat 32 (pre.length + bs.length), input := rest } := by
  induction bs generalizing s pre with
  | nil =>
    simp only [List.length_nil, runSteps_zero, List.append_nil, Nat.add_zero, ← hp, ← hc]
    rw [show rest = s.input by simp [hi, bytesIn]]
  | cons b bs ih =>
    have hlen := s.len.isLt
    simp only [List.length_cons] at hl
    have hct : s.cnt.toNat = pre.length := by rw [hc, BitVec.toNat_ofNat]; omega
    have hc1 : s.cnt + 1 = BitVec.ofNat 32 (pre ++ [b]).length := by
      apply BitVec.eq_of_toNat_eq; simp [BitVec.toNat_add, hct]
    have hlt : s.cnt < s.len := by rw [BitVec.lt_def]; omega
    have hne : s.cnt + 1 ≠ s.len := by
      intro e; have := congrArg BitVec.toNat e; rw [hc1, BitVec.toNat_ofNat] at this; simp at this; omega
    have hpay : s.pay.write s.cnt.toNat b = Memory.ofBytes 0 (pre ++ [b]) := by
      rw [hp, hct]; simpa using Memory.write_ofBytes 0 pre b
    have hstep : step s = .next { s with
        input := bytesIn bs ++ rest, pos := s.pos + 1, pay := Memory.ofBytes 0 (pre ++ [b]), cnt := s.cnt + 1 } := by
      apply step_taken
      rw [fetch_data hs ha hw (b := b) (rest := bytesIn bs ++ rest) (by rw [hi, bytesIn_cons]; rfl),
        dataByte_more (by exact hlt) (by exact hne)]
      simp only [hpay]
    rw [List.length_cons, runSteps_next hstep,
      ih (s := { s with
        input := bytesIn bs ++ rest, pos := s.pos + 1, pay := Memory.ofBytes 0 (pre ++ [b]), cnt := s.cnt + 1 })
        (pre := pre ++ [b]) hs ha hw rfl hc1 (by simp; omega) rfl]
    simp only [List.append_assoc, List.singleton_append, List.length_append, List.length_singleton]
    rw [Nat.add_assoc s.pos, Nat.add_comm 1, Nat.add_assoc pre.length, Nat.add_comm 1]

/-- The last payload byte runs the SEND with all of PAY. -/
theorem step_payload_last {s : State} {pre : List Byte} {b : Byte} {rest : List Event} (hs : s.state = .readData)
    (ha : s.abort = false) (hw : s.awaiting = false) (hp : s.pay = Memory.ofBytes 0 pre)
    (hc : s.cnt = BitVec.ofNat 32 pre.length) (hl : pre.length + 1 = s.len.toNat)
    (hi : s.input = .port (.byte b) :: rest) :
    step s = exec (.send s.obj s.inst s.start (pre ++ [b]))
      { s with input := rest, pos := s.pos + 1, pay := Memory.ofBytes 0 (pre ++ [b]), cnt := s.cnt + 1 } := by
  have hlen := s.len.isLt
  have hct : s.cnt.toNat = pre.length := by rw [hc, BitVec.toNat_ofNat]; omega
  have hlt : s.cnt < s.len := by rw [BitVec.lt_def]; omega
  have he : s.cnt + 1 = s.len := by
    apply BitVec.eq_of_toNat_eq; simp [BitVec.toNat_add, hct]; omega
  have hpay : s.pay.write s.cnt.toNat b = Memory.ofBytes 0 (pre ++ [b]) := by
    rw [hp, hct]; simpa using Memory.write_ofBytes 0 pre b
  have hr : Memory.range (s.pay.write s.cnt.toNat b) 0 s.len.toNat = some (pre ++ [b]) := by
    rw [hpay, show s.len.toNat = (pre ++ [b]).length by simp [← hl], Memory.range_ofBytes]
  rw [step_run (i := .send s.obj s.inst s.start (pre ++ [b])) (t := { s with
    input := rest, pos := s.pos + 1, pay := s.pay.write s.cnt.toNat b, cnt := s.cnt + 1 }), hpay]
  rw [fetch_data hs ha hw hi, dataByte_last (by exact hlt) (by exact he) (by exact hr)]

/-- `t` has presented nothing more than `s`, has taken no answer, and goes on decoding. -/
structure Quiet (s t : State) : Prop where
  outputs : t.outputs = s.outputs
  answers : t.answers = s.answers
  encOut : t.encOut = s.encOut
  abort : t.abort = false
  awaiting : t.awaiting = false

theorem Quiet.trans {s t u : State} (h : Quiet s t) (h' : Quiet t u) : Quiet s u :=
  ⟨h'.outputs.trans h.outputs, h'.answers.trans h.answers, h'.encOut.trans h.encOut, h'.abort, h'.awaiting⟩

/-- From `s`, these bytes are taken one step each, and nothing is presented before the last of them is taken. -/
def Feeds (s : State) (bs : List Byte) (rest : List Event) : Prop :=
  ∀ k, k < bs.length → ∃ t, runSteps k s = .next t ∧ Quiet s t ∧ t.input = bytesIn (bs.drop k) ++ rest

theorem Feeds.nil (s : State) (rest : List Event) : Feeds s [] rest := fun k h => absurd h (by simp)

/-- Bytes fed after bytes. -/
theorem Feeds.append {s t : State} {bs cs : List Byte} {rest : List Event} (h : Feeds s bs (bytesIn cs ++ rest))
    (hrun : runSteps bs.length s = .next t) (hq : Quiet s t) (h' : Feeds t cs rest) : Feeds s (bs ++ cs) rest := by
  intro k hk
  by_cases hlt : k < bs.length
  · obtain ⟨u, hu, hqu, hiu⟩ := h k hlt
    refine ⟨u, hu, hqu, ?_⟩
    rw [hiu, List.drop_append_of_le_length (by omega), bytesIn_append, List.append_assoc]
  · obtain ⟨j, rfl⟩ := Nat.exists_eq_add_of_le (Nat.le_of_not_lt hlt)
    obtain ⟨u, hu, hqu, hiu⟩ := h' j (by simp at hk; omega)
    refine ⟨u, (runSteps_add hrun).trans hu, hq.trans hqu, ?_⟩
    rw [hiu, List.drop_append, List.drop_eq_nil_of_le (as := bs) (by omega), List.nil_append, Nat.add_sub_cancel_left]

/-- One byte. -/
theorem Feeds.one {s : State} {b : Byte} {rest : List Event} (ha : s.abort = false) (hw : s.awaiting = false)
    (hi : s.input = .port (.byte b) :: rest) : Feeds s [b] rest := by
  intro k hk
  obtain rfl : k = 0 := by simpa using hk
  exact ⟨s, rfl, ⟨rfl, rfl, rfl, ha, hw⟩, hi⟩

/-- One header field. -/
theorem Feeds.field {s : State} {v : Word} {rest : List Event} (hs : s.state.isHeader = true)
    (ha : s.abort = false) (hw : s.awaiting = false) (hc : s.cnt = 0) (hi : s.input = bytesIn (be32 v) ++ rest) :
    Feeds s (be32 v) rest := by
  intro k hk
  obtain ⟨acc, h⟩ := (run_field hs ha hw hc hi).1 k hk
  exact ⟨_, h, ⟨rfl, rfl, rfl, ha, hw⟩, rfl⟩

/-- The bytes of a payload that completes LEN. -/
theorem Feeds.payload {s : State} {bs : List Byte} {rest : List Event} (hs : s.state = .readData)
    (ha : s.abort = false) (hw : s.awaiting = false) (hp : s.pay = []) (hc : s.cnt = 0)
    (hl : bs.length = s.len.toNat) (hi : s.input = bytesIn bs ++ rest) : Feeds s bs rest := by
  intro k hk
  have h := run_payload_part (s := s) (pre := []) (bs := bs.take k) (rest := bytesIn (bs.drop k) ++ rest) hs ha hw hp
    hc (by simp; omega) (by rw [hi, ← List.append_assoc, ← bytesIn_append, List.take_append_drop])
  rw [List.length_take_of_le (by omega)] at h
  exact ⟨_, h, ⟨rfl, rfl, rfl, ha, hw⟩, rfl⟩

/-! ### The parts of a message -/

/-- A legal tag, taken in IDLE. -/
theorem run_tag {s : State} {b : Byte} {rest} (hr : s.Ready) (ht : isTag b = true)
    (hi : s.input = .port (.byte b) :: rest) :
    runSteps 1 s = .next { s with input := rest, pos := s.pos + 1, tag := b, cnt := 0, state := .readObjectId } := by
  rw [runSteps_one]; apply step_taken; rw [fetch_idle hr hi]; simp [idleByte, ht]

/-- A legal tag and objectId, taken from IDLE. -/
theorem run_tagged {s : State} {b : Byte} {o : Word} {rest} (hr : s.Ready) (ht : isTag b = true)
    (hi : s.input = bytesIn (b :: be32 o) ++ rest) :
    Feeds s (b :: be32 o) rest ∧ runSteps 5 s = .next { s with
      input := rest, pos := s.pos + 5, tag := b, cnt := 0, state := .readInstanceNo, obj := o, acc := Acc.ofWord o } := by
  have h1 := run_tag hr ht (rest := bytesIn (be32 o) ++ rest) (by rw [hi]; rfl)
  have h2 := run_field (v := o) (rest := rest)
      (s := { s with
      input := bytesIn (be32 o) ++ rest, pos := s.pos + 1, tag := b, cnt := 0, state := .readObjectId }) rfl hr.2.1 hr.2.2 rfl rfl
  refine ⟨Feeds.append (bs := [b])
      (Feeds.one hr.2.1 hr.2.2 (by rw [hi]; rfl)) h1 ⟨rfl, rfl, rfl, hr.2.1,
          hr.2.2⟩ (Feeds.field rfl hr.2.1 hr.2.2 rfl rfl), ?_⟩
  exact (runSteps_add (k := 4) h1).trans h2.2

/-- instanceNo of a message that is no COMMAND. -/
theorem run_instance {s : State} {n : Word} {rest} (hs : s.state = .readInstanceNo) (ha : s.abort = false)
    (hw : s.awaiting = false)
    (hc : s.cnt = 0) (ht : s.tag ≠ tagCommand)
    (hi : s.input = bytesIn (be32 n) ++ rest) :
    Feeds s (be32 n) rest ∧ runSteps 4 s = .next { s with
      input := rest, pos := s.pos + 4, cnt := 0, state := .readStart, inst := n, acc := Acc.ofWord n } := by
  have hh : s.state.isHeader = true := by rw [hs]; rfl
  refine ⟨Feeds.field hh ha hw hc hi, (run_field hh ha hw hc hi).2.trans ?_⟩
  rw [show s.state.number - 1 = 1 by rw [hs]; rfl, State.setField_one]
  rw [completeField_instanceNo (by exact hs) (by exact ht)]; rfl

/-- The field `start`. -/
theorem run_start {s : State} {n : Word} {rest} (hs : s.state = .readStart) (ha : s.abort = false)
    (hw : s.awaiting = false)
    (hc : s.cnt = 0)
    (hi : s.input = bytesIn (be32 n) ++ rest) :
    Feeds s (be32 n) rest ∧ runSteps 4 s = .next { s with
      input := rest, pos := s.pos + 4, cnt := 0, state := .readLength, start := n, acc := Acc.ofWord n } := by
  have hh : s.state.isHeader = true := by rw [hs]; rfl
  refine ⟨Feeds.field hh ha hw hc hi, (run_field hh ha hw hc hi).2.trans ?_⟩
  rw [show s.state.number - 1 = 2 by rw [hs]; rfl, State.setField_two]
  rw [completeField_start (by exact hs)]; rfl

/-- instanceNo of a COMMAND: the COMMAND is executed. -/
theorem run_command {s : State} {n : Word} {rest} (hs : s.state = .readInstanceNo) (ha : s.abort = false)
    (hw : s.awaiting = false)
    (hc : s.cnt = 0) (ht : s.tag = tagCommand)
    (hi : s.input = bytesIn (be32 n) ++ rest) :
    Feeds s (be32 n) rest ∧ runSteps 4 s = exec (.command s.obj n) { s with
      input := rest, pos := s.pos + 4, cnt := 0, inst := n, acc := Acc.ofWord n } := by
  have hh : s.state.isHeader = true := by rw [hs]; rfl
  refine ⟨Feeds.field hh ha hw hc hi, (run_field hh ha hw hc hi).2.trans ?_⟩
  rw [show s.state.number - 1 = 1 by rw [hs]; rfl, State.setField_one]
  rw [completeField_command (by exact hs) (by exact ht)]; rfl

/-- The length field of a REQUEST: the REQUEST is executed. -/
theorem run_request {s : State} {n : Word} {rest} (hs : s.state = .readLength) (ha : s.abort = false)
    (hw : s.awaiting = false)
    (hc : s.cnt = 0) (ht : s.tag = tagRequest)
    (hi : s.input = bytesIn (be32 n) ++ rest) :
    Feeds s (be32 n) rest ∧ runSteps 4 s = exec (.request s.obj s.inst s.start n) { s with
      input := rest, pos := s.pos + 4, cnt := 0, len := n, acc := Acc.ofWord n } := by
  have hh : s.state.isHeader = true := by rw [hs]; rfl
  refine ⟨Feeds.field hh ha hw hc hi, (run_field hh ha hw hc hi).2.trans ?_⟩
  rw [show s.state.number - 1 = 3 by rw [hs]; rfl, State.setField_three]
  rw [completeField_request (by exact hs) (by exact ht)]; rfl

/-- The length field of a SEND without payload: the SEND is executed. -/
theorem run_emptySend {s : State} {n : Word} {rest} (hs : s.state = .readLength) (ha : s.abort = false)
    (hw : s.awaiting = false)
    (hc : s.cnt = 0) (ht : s.tag = tagSend) (hn : n = 0)
    (hi : s.input = bytesIn (be32 n) ++ rest) :
    Feeds s (be32 n) rest ∧ runSteps 4 s = exec (.send s.obj s.inst s.start []) { s with
      input := rest, pos := s.pos + 4, cnt := 0, len := n, acc := Acc.ofWord n } := by
  have hh : s.state.isHeader = true := by rw [hs]; rfl
  refine ⟨Feeds.field hh ha hw hc hi, (run_field hh ha hw hc hi).2.trans ?_⟩
  rw [show s.state.number - 1 = 3 by rw [hs]; rfl, State.setField_three]
  rw [completeField_emptySend (by exact hs) (by change s.tag ≠ _; rw [ht]; decide) (by exact hn)]; rfl

/-- The length field of a SEND with a payload. -/
theorem run_sendLength {s : State} {n : Word} {rest} (hs : s.state = .readLength) (ha : s.abort = false)
    (hw : s.awaiting = false)
    (hc : s.cnt = 0) (ht : s.tag = tagSend) (hn : n ≠ 0) (hm : n ≤ s.maxPayload)
    (hi : s.input = bytesIn (be32 n) ++ rest) :
    Feeds s (be32 n) rest ∧ runSteps 4 s = .next { s with
      input := rest, pos := s.pos + 4, cnt := 0, len := n, acc := Acc.ofWord n, pay := [], state := .readData } := by
  have hh : s.state.isHeader = true := by rw [hs]; rfl
  refine ⟨Feeds.field hh ha hw hc hi, (run_field hh ha hw hc hi).2.trans ?_⟩
  rw [show s.state.number - 1 = 3 by rw [hs]; rfl, State.setField_three]
  rw [completeField_payload (by exact hs) (by change s.tag ≠ _; rw [ht]; decide) (by exact hn)
      (BitVec.not_lt.mpr hm)]; rfl

/-- A whole payload: the SEND is executed. -/
theorem run_payload {s : State} {p : List Byte} {rest : List Event} (hs : s.state = .readData)
    (ha : s.abort = false) (hw : s.awaiting = false) (hp : s.pay = []) (hc : s.cnt = 0) (h0 : p ≠ [])
    (hl : p.length = s.len.toNat) (hi : s.input = bytesIn p ++ rest) :
    Feeds s p rest ∧ runSteps p.length s = exec (.send s.obj s.inst s.start p) { s with
      input := rest, pos := s.pos + p.length, pay := Memory.ofBytes 0 p, cnt := s.len } := by
  refine ⟨Feeds.payload hs ha hw hp hc hl hi, ?_⟩
  obtain ⟨q, b, rfl⟩ : ∃ q b, p = q ++ [b] := ⟨p.dropLast, p.getLast h0, (List.dropLast_append_getLast h0).symm⟩
  rw [bytesIn_append, List.append_assoc] at hi
  simp only [List.length_append, List.length_singleton] at hl ⊢
  have h1 := run_payload_part (pre := []) (bs := q) hs ha hw hp hc (by show 0 + q.length < s.len.toNat; omega) hi
  have h2 := (runSteps_succ_last h1).trans (step_payload_last (pre := q) (b := b)
      (rest := rest) hs ha hw rfl (by show BitVec.ofNat 32 (0 + q.length) = _; rw [Nat.zero_add]) (by exact hl) rfl)
  refine h2.trans ?_
  have hcl : BitVec.ofNat 32 (([] : List Byte).length + q.length) + 1 = s.len := by
    apply BitVec.eq_of_toNat_eq; have := s.len.isLt; simp [BitVec.toNat_add]; omega
  rw [hcl]
  rfl

/-- `s` after the 13 bytes before the length field of format H17 with this tag. -/
def beforeLength (s : State) (b : Byte) (o n st : Word) (rest : List Event) : State :=
  { s with
      input := rest, pos := s.pos + 13, tag := b, cnt := 0, state := .readLength, obj := o, inst := n, start := st, acc := Acc.ofWord st }

/-- The 13 bytes before the length field of format H17, taken from IDLE. -/
theorem run_header {s : State} {b : Byte} {o n st : Word} {rest} (hr : s.Ready) (ht : isTag b = true)
    (hc : b ≠ tagCommand)
    (hi : s.input = bytesIn (b :: (be32 o ++ be32 n ++ be32 st)) ++ rest) :
    Feeds s (b :: (be32 o ++ be32 n ++ be32 st)) rest ∧ runSteps 13 s = .next (beforeLength s b o n st rest) := by
  have e : (b :: (be32 o ++ be32 n ++ be32 st)) = (b :: be32 o) ++ (be32 n ++ be32 st) := by simp
  rw [e] at hi ⊢
  rw [bytesIn_append, List.append_assoc] at hi
  obtain ⟨f1, r1⟩ := run_tagged hr ht hi
  obtain ⟨f2, r2⟩ := run_instance (n := n) (rest := bytesIn (be32 st) ++ rest)
      (s := { s with
      input := bytesIn (be32 n ++ be32 st) ++ rest, pos := s.pos + 5, tag := b, cnt := 0, state := .readInstanceNo, obj := o, acc := Acc.ofWord o }) rfl hr.2.1 hr.2.2 rfl hc (by rw [bytesIn_append, List.append_assoc])
  obtain ⟨f3, r3⟩ := run_start (n := st) (rest := rest)
      (s := { s with
      input := bytesIn (be32 st) ++ rest, pos := s.pos + 5 + 4, tag := b, cnt := 0, state := .readStart, obj := o, inst := n, acc := Acc.ofWord n }) rfl hr.2.1 hr.2.2 rfl rfl
  refine ⟨f1.append r1 ⟨rfl, rfl, rfl, hr.2.1, hr.2.2⟩ (f2.append r2 ⟨rfl, rfl, rfl, hr.2.1, hr.2.2⟩ f3), ?_⟩
  exact (runSteps_add (j := 5) (k := 8) r1).trans ((runSteps_add (j := 4) (k := 4) r2).trans r3)

end Sys2Proof.Machine
end

