-- ==== Sys2Proof/Laws/Values.lean ====
section
/-! SUPPORT. Registers that hold no value (R20) are not read: two states that differ in nothing else take the handler's
answer, execute an instruction and take the next input in the same way. -/

namespace Sys2Proof.Machine

/-- Two fetches that do the same but for contents that hold no value. -/
def Fetch.SameValues : Fetch → Fetch → Prop
  | .taken s, .taken t => s.SameValues t
  | .run i s, .run j t => i = j ∧ s.SameValues t
  | .fault f, .fault g => f = g
  | .refused r, .refused q => r = q
  | _, _ => False

/-- The contents `t` has where `s` holds no value, made explicit. -/
theorem State.SameValues.registers {s t : State} (h : s.SameValues t) :
    ∃ g a o n b l, t = s.withRegisters g a o n b l ∧ (s.state ≠ .idle → g = s.tag) ∧
      (s.state.isHeader = true → a.bytes.take s.cnt.toNat = s.acc.bytes.take s.cnt.toNat) ∧
      (2 ≤ s.state.number → o = s.obj) ∧ (3 ≤ s.state.number → n = s.inst) ∧
      (4 ≤ s.state.number → b = s.start) ∧ (s.state = .readData → l = s.len) :=
  ⟨_, _, _, _, _, _, h⟩

/-- In IDLE the registers hold no value. -/
theorem sameValues_idle {s : State} (h : s.state = .idle) (g : Byte) (a : Acc) (o n b l : Word) :
    s.SameValues (s.withRegisters g a o n b l) := by
  simp [State.SameValues, State.withRegisters, h, AutoState.isHeader, AutoState.number]

/-- The handler's answer is taken in the same way. -/
theorem takeAnswer_sameValues {s t : State} (h : s.SameValues t) : (takeAnswer s).SameValues (takeAnswer t) := by
  obtain ⟨g, a, o, n, b, l, rfl, hr⟩ := h.registers
  rcases takeAnswer_cases s with ⟨hs, hh⟩ | ⟨later, hs, hh⟩ | ⟨later, hs, hh⟩ | ⟨later, hs, hh⟩ <;> rw [hh]
  · rw [takeAnswer_none (s := s.withRegisters g a o n b l) hs]; exact ⟨rfl, hr⟩
  · rw [takeAnswer_notYet (s := s.withRegisters g a o n b l) hs]; exact ⟨rfl, hr⟩
  · rw [takeAnswer_ok (s := s.withRegisters g a o n b l) hs]; exact ⟨rfl, hr⟩
  · rw [takeAnswer_fail (s := s.withRegisters g a o n b l) hs]; exact ⟨rfl, hr⟩

/-- After a discharge only the outputs and the answers tell. -/
theorem discharge_sameValues (e : HandlerEvent) (s : State) (g : Byte) (a : Acc) (o n b l : Word) :
    (discharge e s).SameValues (discharge e (s.withRegisters g a o n b l)) :=
  takeAnswer_sameValues (sameValues_idle (s := State.emit { s with state := .idle, cnt := 0, pay := [] } e) rfl g a o n b l)

/-- An instruction does the same. -/
theorem exec_sameValues {s t : State} (h : s.SameValues t) (i : Instr) :
    (∀ u, exec i s = .next u → ∃ v, exec i t = .next v ∧ u.SameValues v) ∧
    (∀ f, exec i s = .fault f → exec i t = .fault f) ∧ (∀ r, exec i s = .refused r → exec i t = .refused r) := by
  obtain ⟨g, a, o, n, b, l, rfl, hr⟩ := h.registers
  by_cases hw : i.isWire = true
  · by_cases ha : s.abort = true
    · rw [exec_wire_abort hw ha, exec_wire_abort (s := s.withRegisters g a o n b l) hw ha]
      refine ⟨fun u hu => ⟨_, rfl, ?_⟩, nofun, nofun⟩
      cases hu; exact h
    · have ha : s.abort = false := by simpa using ha
      obtain ⟨e, he⟩ : ∃ e, eventOf i = some e := Option.isSome_iff_exists.mp (by rw [eventOf_isSome, hw])
      by_cases hf : fitsPayload s.maxPayload i = true
      · rw [exec_wire he ha hf, exec_wire (s := s.withRegisters g a o n b l) he ha hf]
        refine ⟨fun u hu => ⟨_, rfl, ?_⟩, nofun, nofun⟩
        cases hu
        have : loaded i (s.withRegisters g a o n b l) =
            (loaded i s).withRegisters (loaded i s).tag (loaded i s).acc (loaded i s).obj (loaded i s).inst
              (loaded i (s.withRegisters g a o n b l)).start (loaded i (s.withRegisters g a o n b l)).len := by
          cases i <;> first | rfl | cases hw
        rw [this]
        exact discharge_sameValues ..
      · have hf : fitsPayload s.maxPayload i = false := by simpa using hf
        obtain ⟨_, _, _, p, rfl, -, h1⟩ := exec_wire_refused ha hf
        obtain ⟨_, _, _, _, hq, -, h2⟩ := exec_wire_refused (s := s.withRegisters g a o n b l) ha hf
        cases hq
        rw [h1, h2]
        exact ⟨nofun, nofun, fun _ h => h⟩
  · rcases exec_command (i := i) (by simpa using hw) with hh | hh
    all_goals
      rw [hh s, hh (s.withRegisters g a o n b l)]
      refine ⟨fun u hu => ⟨_, rfl, ?_⟩, nofun, nofun⟩
      cases hu; exact ⟨rfl, hr⟩

/-- Storing the next byte of a field keeps the bytes so far equal. -/
theorem Acc.set_agree {a a' c : Acc} {k : Nat} {x : Byte} (h : a'.bytes.take k = a.bytes.take k)
    (hc : a.set k x = some c) :
    ∃ c', a'.set k x = some c' ∧ c'.bytes.take (k + 1) = c.bytes.take (k + 1) := by
  match k, hc with
  | 0, hc | 1, hc | 2, hc | 3, hc => cases hc; simp [Acc.bytes] at h; exact ⟨_, rfl, by simp [Acc.bytes, h]⟩

/-- A completed field is completed in the same way; STATE is a header state and CNT is 0. -/
theorem completeField_sameValues {s : State} (hs : s.state.isHeader = true) (h0 : s.cnt = 0) {a : Acc} {o n b l : Word}
    (ho : o = s.obj) (hn : 2 ≤ s.state.number → n = s.inst) (hb : 3 ≤ s.state.number → b = s.start)
    (hl : 4 ≤ s.state.number → l = s.len) :
    (completeField s).SameValues (completeField (s.withRegisters s.tag a o n b l)) := by
  subst ho
  cases h : s.state <;> simp only [h, AutoState.isHeader, AutoState.number] at hs hn hb hl
  case idle | readData => cases hs
  all_goals
    have h' : ∀ {a o n b l}, (s.withRegisters s.tag a o n b l).state = s.state := rfl
  case readObjectId =>
    rw [completeField_objectId h, completeField_objectId (h'.trans h)]
    simp [Fetch.SameValues, State.SameValues, State.withRegisters, h0, AutoState.isHeader, AutoState.number]
  case readInstanceNo =>
    cases hn (by omega)
    by_cases ht : s.tag = tagCommand
    · rw [completeField_command h ht, completeField_command (s := s.withRegisters s.tag a s.obj s.inst b l) h ht]
      simp [Fetch.SameValues, State.SameValues, State.withRegisters, h, h0, AutoState.isHeader, AutoState.number]
    · rw [completeField_instanceNo h ht, completeField_instanceNo (s := s.withRegisters s.tag a s.obj s.inst b l) h ht]
      simp [Fetch.SameValues, State.SameValues, State.withRegisters, h0, AutoState.isHeader, AutoState.number]
  case readStart =>
    cases hn (by omega); cases hb (by omega)
    rw [completeField_start h, completeField_start (h'.trans h)]
    simp [Fetch.SameValues, State.SameValues, State.withRegisters, h0, AutoState.isHeader, AutoState.number]
  case readLength =>
    cases hn (by omega); cases hb (by omega); cases hl (by omega)
    let t := s.withRegisters s.tag a s.obj s.inst s.start s.len
    by_cases ht : s.tag = tagRequest
    · rw [completeField_request h ht, completeField_request (s := t) h ht]
      simp [t, Fetch.SameValues, State.SameValues, State.withRegisters, h, h0, AutoState.isHeader, AutoState.number]
    by_cases hz : s.len = 0
    · rw [completeField_emptySend h ht hz, completeField_emptySend (s := t) h ht hz]
      simp [t, Fetch.SameValues, State.SameValues, State.withRegisters, h, h0, AutoState.isHeader, AutoState.number]
    by_cases hm : s.maxPayload < s.len
    · rw [completeField_tooLong h ht hz hm, completeField_tooLong (s := t) h ht hz hm]; rfl
    · rw [completeField_payload h ht hz hm, completeField_payload (s := t) h ht hz hm]
      simp [t, Fetch.SameValues, State.SameValues, State.withRegisters, AutoState.isHeader]

/-- A byte of a header field is taken in the same way. -/
theorem headerByte_sameValues (x : Byte) {s t : State} (h : s.SameValues t) (hs : s.state.isHeader = true) :
    (headerByte x s).SameValues (headerByte x t) := by
  obtain ⟨g, a, o, n, b, l, rfl, hg, ha, ho, hn, hb, hl⟩ := h.registers
  have hne : s.state ≠ .idle := by intro e; rw [e] at hs; cases hs
  cases hg hne
  have hacc := ha hs
  let t := s.withRegisters s.tag a o n b l
  cases hset : s.acc.set s.cnt.toNat x with
  | none =>
    rw [headerByte_outOfRange hset, headerByte_outOfRange (s := t) (Acc.set_eq_none.mpr (Acc.set_eq_none.mp hset))]
    rfl
  | some c =>
    obtain ⟨c', hset', hcc⟩ := Acc.set_agree hacc hset
    by_cases h4 : s.cnt + 1 = 4
    · have h3 : s.cnt = 3 := by
        have := congrArg (· - 1#32) h4
        simpa using this
      have hc : c' = c := by
        cases c; cases c'; simp [h3, Acc.bytes] at hcc; simp [hcc]
      subst hc
      rw [headerByte_fourth hset h4, headerByte_fourth (s := t) hset' h4]
      have hnum : t.state.number = s.state.number := rfl
      rw [hnum]
      have hst : s.state = .readObjectId ∨ s.state = .readInstanceNo ∨ s.state = .readStart ∨ s.state = .readLength := by
        cases h : s.state <;> simp_all [AutoState.isHeader]
      rcases hst with h | h | h | h <;> simp only [h, AutoState.number] at ho hn hb
      · rw [show s.state.number - 1 = 0 by rw [h]; rfl]
        exact completeField_sameValues (s := { s with acc := c', cnt := 0, obj := c'.toWord }) (by simp [h, AutoState.isHeader])
          rfl (a := c') rfl (by simp [h, AutoState.number]) (by simp [h, AutoState.number]) (by simp [h, AutoState.number])
      · rw [show s.state.number - 1 = 1 by rw [h]; rfl]
        exact completeField_sameValues (s := { s with acc := c', cnt := 0, inst := c'.toWord }) (by simp [h, AutoState.isHeader])
          rfl (a := c') (ho (by omega)) (fun _ => rfl) (by simp [h, AutoState.number]) (by simp [h, AutoState.number])
      · rw [show s.state.number - 1 = 2 by rw [h]; rfl]
        exact completeField_sameValues (s := { s with acc := c', cnt := 0, start := c'.toWord }) (by simp [h, AutoState.isHeader])
          rfl (a := c') (ho (by omega)) (fun _ => hn (by omega)) (fun _ => rfl) (by simp [h, AutoState.number])
      · rw [show s.state.number - 1 = 3 by rw [h]; rfl]
        exact completeField_sameValues (s := { s with acc := c', cnt := 0, len := c'.toWord }) (by simp [h, AutoState.isHeader])
          rfl (a := c') (ho (by omega)) (fun _ => hn (by omega)) (fun _ => hb (by omega)) (fun _ => rfl)
    · rw [headerByte_more hset h4, headerByte_more (s := t) hset' h4]
      refine ⟨rfl, fun _ => rfl, fun _ => ?_, ho, hn, hb, hl⟩
      have : (s.cnt + 1).toNat = s.cnt.toNat + 1 := by
        have := Acc.set_bytes hset
        rw [BitVec.toNat_add]; simp; omega
      change List.take (s.cnt + 1).toNat _ = List.take (s.cnt + 1).toNat _
      rw [this]; exact hcc

/-- A byte of the payload is taken in the same way. -/
theorem dataByte_sameValues (x : Byte) {s t : State} (h : s.SameValues t) (hs : s.state = .readData) :
    (dataByte x s).SameValues (dataByte x t) := by
  obtain ⟨g, a, o, n, b, l, rfl, hg, -, ho, hn, hb, hl⟩ := h.registers
  cases hg (by simp [hs]); cases ho (by simp [hs, AutoState.number]); cases hn (by simp [hs, AutoState.number])
  cases hb (by simp [hs, AutoState.number]); cases hl hs
  let t := s.withRegisters s.tag a s.obj s.inst s.start s.len
  by_cases hlt : s.cnt < s.len
  · by_cases he : s.cnt + 1 = s.len
    · cases hr : Memory.range (s.pay.write s.cnt.toNat x) 0 s.len.toNat with
      | none => rw [dataByte_unwritten hlt he hr, dataByte_unwritten (s := t) hlt he hr]; rfl
      | some payload =>
        rw [dataByte_last hlt he hr, dataByte_last (s := t) hlt he hr]
        exact ⟨rfl, rfl, by simp [t, State.withRegisters, hs, AutoState.isHeader]⟩
    · rw [dataByte_more hlt he, dataByte_more (s := t) hlt he]
      exact ⟨rfl, by simp [t, State.withRegisters, hs, AutoState.isHeader]⟩
  · rw [dataByte_outOfRange hlt, dataByte_outOfRange (s := t) hlt]; rfl

/-- A byte is taken in the same way. -/
theorem takeByte_sameValues (x : Byte) {s t : State} (h : s.SameValues t) :
    (takeByte x s).SameValues (takeByte x t) := by
  obtain ⟨g, a, o, n, b, l, rfl, hr⟩ := h.registers
  let t := s.withRegisters g a o n b l
  by_cases ha : s.abort = true
  · rw [takeByte_abort ha, takeByte_abort (s := t) ha]; exact ⟨rfl, hr⟩
  have ha : s.abort = false := by simpa using ha
  have hpos : State.SameValues { s with pos := s.pos + 1 } { t with pos := s.pos + 1 } := ⟨rfl, hr⟩
  by_cases hi : s.state = .idle
  · rw [takeByte_idle ha hi, takeByte_idle (s := t) ha hi]
    unfold idleByte; split
    · simp [t, Fetch.SameValues, State.SameValues, State.withRegisters, AutoState.isHeader, AutoState.number]
    · simp [t, Fetch.SameValues, State.SameValues, State.withRegisters, raise, State.report, hi, AutoState.isHeader,
        AutoState.number]
  by_cases hd : s.state = .readData
  · rw [takeByte_data ha hd, takeByte_data (s := t) ha hd]; exact dataByte_sameValues x hpos hd
  have hh : s.state.isHeader = true := by cases h : s.state <;> simp_all [AutoState.isHeader]
  rw [takeByte_header ha hh, takeByte_header (s := t) ha hh]; exact headerByte_sameValues x hpos hh

/-- The end of a buffer is taken in the same way, in either mode. -/
theorem endOfBuffer_sameValues {s t : State} (h : s.SameValues t) : (endOfBuffer s).SameValues (endOfBuffer t) := by
  obtain ⟨g, a, o, n, b, l, rfl, hr⟩ := h.registers
  have hm : (s.withRegisters g a o n b l).mode = s.mode := rfl
  unfold endOfBuffer
  rw [hm]
  split
  · exact sameValues_idle (s := freshAutomaton s) rfl ..
  · exact ⟨rfl, hr⟩

/-- Whatever is presented next is taken in the same way. -/
theorem fetch_sameValues {s t : State} (h : s.SameValues t) : (fetch s).SameValues (fetch t) := by
  have hta := takeAnswer_sameValues h
  obtain ⟨g, a, o, n, b, l, rfl, hr⟩ := h.registers
  let t := s.withRegisters g a o n b l
  have hin : t.input = s.input := rfl
  have hrest : ∀ rest, State.SameValues { s with input := rest } { t with input := rest } := fun _ => ⟨rfl, hr⟩
  rcases events_cases s.input with hi | ⟨al, rest, hi⟩ | ⟨rest, hi⟩ | ⟨x, rest, hi⟩ | ⟨c, y, rest, hi⟩
  · by_cases hw : s.awaiting = true
    · rw [fetch_awaiting hw (by simp [hi]) (by simp [hi]),
        fetch_awaiting (s := t) hw (by simp [hin, hi]) (by simp [hin, hi])]
      exact hta
    · have hw : s.awaiting = false := by simpa using hw
      rw [fetch_noInput hi hw, fetch_noInput (s := t) hi hw]; exact h
  · rw [fetch_reset hi, fetch_reset (s := t) hi]; exact sameValues_idle (s := resetEvent { s with input := rest }) rfl ..
  · by_cases hw : s.awaiting = true
    · rw [fetch_awaiting hw (by simp [hi]) (by simp [hi]),
        fetch_awaiting (s := t) hw (by simp [hin, hi]) (by simp [hin, hi])]
      exact hta
    · have hw : s.awaiting = false := by simpa using hw
      rw [fetch_eob hi hw, fetch_eob (s := t) hi hw]
      exact endOfBuffer_sameValues (hrest rest)
  · by_cases hw : s.awaiting = true
    · rw [fetch_awaiting hw (by simp [hi]) (by simp [hi]),
        fetch_awaiting (s := t) hw (by simp [hin, hi]) (by simp [hin, hi])]
      exact hta
    · have hw : s.awaiting = false := by simpa using hw
      rw [fetch_byte hi hw, fetch_byte (s := t) hi hw]
      exact takeByte_sameValues x (hrest rest)
  · cases hd : decodePort c y with
    | error e =>
      have hit : t.input = .port (.command c y) :: rest := hi
      rw [show fetch s = .refused (.noSuchCommand c) by simp [fetch, hi, hd],
        show fetch t = .refused (.noSuchCommand c) by simp [fetch, hit, hd]]; rfl
    | ok i => rw [fetch_command hi hd, fetch_command (s := t) hi hd]; exact ⟨rfl, hrest rest⟩

end Sys2Proof.Machine
end

