-- ==== Sys2Proof/Tests/Slice0.lean ====
section
/-! SUPPORT. Tests: WellFormed, decoding of words written out from the spec's encodings, single steps from the test
vectors of 95_test_vectors.md, and for every statement with hypotheses a named witness that meets them. Expected results
are the spec's; a name in a comment (E5, V8, ...) is the vector it comes from. -/

namespace Sys2Proof.Machine

/-! ### Helpers -/

/-- The outcome is a next state with this property. -/
def nextIs (o : Host.Outcome State Fault Refusal) (p : State → Bool) : Bool :=
  match o with
  | .next t => p t
  | .fault _ | .refused _ => false

/-- The outcome is this refusal. -/
def refusedIs (o : Host.Outcome State Fault Refusal) (r : Refusal) : Bool :=
  match o with
  | .refused r' => decide (r = r')
  | .next _ | .fault _ => false

/-- The decoder in a state of the automaton, with TAG, CNT, ACC and the fields given, a handler that answers ok, and
`events` to come. -/
def decoderAt (st : AutoState) (tag : Byte) (cnt : Word) (acc : Acc) (obj inst start len : Word)
    (events : List Event) : State :=
  { State.reset with
    state := st, tag := tag, cnt := cnt, acc := acc, obj := obj, inst := inst, start := start, len := len,
    input := events, answers := [.ok] }

/-- The decoder in IDLE, with `events` to come. -/
def idleAt (events : List Event) : State := decoderAt .idle 0 0 Acc.zero 0 0 0 0 events

/-- One byte to come. -/
def byteIn (b : Byte) : List Event := [.port (.byte b)]

/-- A state that discards its buffer, with `events` to come. -/
def discardingAt (events : List Event) : State := { idleAt events with abort := true }

/-- A SEND of five payload bytes with two of them received (V20, V22), `events` to come. -/
def midPayload (events : List Event) : State :=
  { decoderAt .readData 2 2 (Acc.ofWord 5) 32 0 0 5 events with pay := [(0, 1), (1, 2)] }

/-- A SEND of three payload bytes with two of them received, `events` to come. -/
def lastPayload (events : List Event) : State :=
  { decoderAt .readData 2 2 (Acc.ofWord 3) 32 0 0 3 events with pay := [(0, 1), (1, 2)] }

/-- A decoder that has presented an event and waits for its answer. -/
def waitingAt (events : List Event) (answers : List Answer) : State :=
  { idleAt events with awaiting := true, answers := answers }

/-! ### Well-formedness -/

theorem send_wellFormed (n : Nat) : (Instr.send 0 0 0 (List.replicate n 0)).wellFormed = decide (n < 2 ^ 32) := by
  simp only [Instr.wellFormed, List.length_replicate]

/-- A SEND of 2^32 payload bytes has no length field (R63, R64): the one check, refused. -/
theorem test_wellFormed_refuses_send_of_2_to_32 :
    (Instr.send 0 0 0 (List.replicate 4294967296 0)).wellFormed = false :=
  (send_wellFormed 4294967296).trans (decide_eq_false (by omega))

/-- A SEND of 2^32 - 1 payload bytes has one (E17). -/
theorem test_wellFormed_accepts_longest_send :
    (Instr.send 0 0 0 (List.replicate 4294967295 0)).wellFormed = true :=
  (send_wellFormed 4294967295).trans (decide_eq_true (by omega))

/-! ### Integer codec (2.1) -/

theorem test_be32_order : be32 16909060 = [0x01, 0x02, 0x03, 0x04] := by decide
theorem test_be32_one : be32 1 = [0, 0, 0, 0x01] := by decide
theorem test_unbe32_top_bit_is_not_a_sign : (unbe32 0x80 0 0 0).toNat = 2147483648 := by decide
theorem test_fits32_bounds :
    fits32 (-1) = false ∧ fits32 0 = true ∧ fits32 4294967295 = true ∧ fits32 4294967296 = false := by decide

/-! ### Decoding -/

/-- E6. -/
theorem test_decode_request :
    decodeMessage [0x01, 0x01, 0x02, 0x03, 0x04, 0x0A, 0x0B, 0x0C, 0x0D, 0x80, 0, 0, 0, 0xFF, 0xFF, 0xFF, 0xFF] =
      .ok (.request 16909060 168496141 2147483648 4294967295, []) := by decide

/-- E13, with two bytes of a next message behind it. -/
theorem test_decode_send :
    decodeMessage [0x02, 0x11, 0x22, 0x33, 0x44, 0, 0, 0, 0x05, 0, 0, 0x01, 0, 0, 0, 0, 0x04, 0xDE, 0xAD, 0xBE, 0xEF,
        0x03, 0x00] =
      .ok (.send 287454020 5 256 [0xDE, 0xAD, 0xBE, 0xEF], [0x03, 0x00]) := by decide

/-- E4. -/
theorem test_decode_command :
    decodeMessage [0x03, 0xCA, 0xFE, 0xBA, 0xBE, 0, 0, 0x01, 0] = .ok (.command 3405691582 256, []) := by decide

/-- V4, V5, V6: the tags nearest to the legal ones, and all ones, are illegal. -/
theorem test_decode_illegal_tags :
    decodeMessage [0x00, 0x01] = .error (.invalidTag 0x00) ∧ decodeMessage [0x04] = .error (.invalidTag 0x04) ∧
    decodeMessage [0xFF] = .error (.invalidTag 0xFF) := by decide

/-- One byte short of a message is no message (R61 to R63). -/
theorem test_decode_short :
    decodeMessage [0x01, 0, 0, 0, 0x10, 0, 0, 0, 0x01, 0, 0, 0x02, 0, 0, 0, 0] = .error .headerIncomplete ∧
    decodeMessage [0x03, 0, 0, 0, 0x07, 0, 0, 0] = .error .headerIncomplete ∧
    decodeMessage [0x02, 0, 0, 0, 0, 0, 0, 0, 0, 0, 0, 0, 0, 0, 0, 0, 0x02, 0xAA] = .error .payloadIncomplete := by
  decide

/-- The six selectors of the opcode table, and the two of `cmd_kind` 0 (R72). -/
theorem test_decode_selectors :
    decodePort 0b010#3 {} = .ok (.encRequest 0 0 0 0) ∧ decodePort 0b011#3 {} = .ok (.encRequestD 0 0 0 0) ∧
    decodePort 0b100#3 {} = .ok (.encSend 0 0 0 []) ∧ decodePort 0b101#3 {} = .ok (.encSendD 0 0 0 []) ∧
    decodePort 0b110#3 {} = .ok (.encCommand 0 0) ∧ decodePort 0b111#3 {} = .ok (.encCommandD 0 0) ∧
    decodePort 0b000#3 {} = .error (.noSuchCommand 0) ∧ decodePort 0b001#3 {} = .error (.noSuchCommand 1) := by
  decide

/-- E15: the encoder of instructions lays the bytes out as the spec does, payload bytes that look like tags included. -/
theorem test_encode_send :
    encode (.send 1 2 3 [0x01, 0x02, 0x03, 0x63]) =
      .wire [0x02, 0, 0, 0, 0x01, 0, 0, 0, 0x02, 0, 0, 0, 0x03, 0, 0, 0, 0x04, 0x01, 0x02, 0x03, 0x63] := by decide

/-- The rows of the opcode table, by their words (E5's first five bytes; the tag alone; the selector alone). -/
theorem test_table_words :
    decodeTableWord 40 0x1000000001 = some (.request 16 0 0 0) ∧ decodeTableWord 8 1 = some (.request 0 0 0 0) ∧
    decodeTableWord 8 2 = some (.send 0 0 0 []) ∧ decodeTableWord 8 3 = some (.command 0 0) ∧
    decodeTableWord 3 2 = some (.encRequest 0 0 0 0) ∧ decodeTableWord 3 3 = some (.encRequestD 0 0 0 0) ∧
    decodeTableWord 8 4 = some (.encSend 0 0 0 []) ∧ decodeTableWord 8 5 = some (.encSendD 0 0 0 []) ∧
    decodeTableWord 8 6 = some (.encCommand 0 0) ∧ decodeTableWord 8 7 = some (.encCommandD 0 0) ∧
    decodeTableWord 16 0 = none := by decide

/-! ### The decoder, one step each (2.3) -/

/-- V1, V3. -/
theorem test_step_legal_tag :
    nextIs (step (idleAt (byteIn 1))) (fun t => t.state = .readObjectId ∧ t.tag = 1 ∧ t.cnt = 0 ∧ t.outputs = []) ∧
    nextIs (step (idleAt (byteIn 3))) (fun t => t.state = .readObjectId ∧ t.tag = 3 ∧ t.cnt = 0 ∧ t.outputs = []) := by
  decide

/-- V4, V6. -/
theorem test_step_illegal_tag :
    nextIs (step (idleAt (byteIn 0))) (fun t => t.state = .idle ∧ t.outputs = [.report (.invalidTag 0)]) ∧
    nextIs (step (idleAt (byteIn 0xFF))) (fun t => t.state = .idle ∧ t.outputs = [.report (.invalidTag 255)]) := by
  decide

/-- V7: no `InvalidTag` outside IDLE. -/
theorem test_step_header_byte :
    nextIs (step (decoderAt .readObjectId 1 0 Acc.zero 0 0 0 0 (byteIn 0x63))) (fun t =>
      t.state = .readObjectId ∧ t.cnt = 1 ∧ t.acc.b0 = 0x63 ∧ t.outputs = []) := by decide

/-- V8. -/
theorem test_step_command_completes :
    nextIs (step (decoderAt .readInstanceNo 3 3 Acc.zero 7 0 0 0 (byteIn 0))) (fun t =>
      t.state = .idle ∧ t.outputs = [.event (.onCommand 7 0)]) := by decide

/-- V9: the same bytes with TAG 1 go on to START. -/
theorem test_step_instance_of_request :
    nextIs (step (decoderAt .readInstanceNo 1 3 Acc.zero 7 0 0 0 (byteIn 0))) (fun t =>
      t.state = .readStart ∧ t.inst = 0 ∧ t.cnt = 0 ∧ t.outputs = []) := by decide

/-- V10, V14: a REQUEST's length, however large, is no payload. -/
theorem test_step_request_completes :
    nextIs (step (decoderAt .readLength 1 3 Acc.zero 16 1 512 0 (byteIn 0x40))) (fun t =>
      t.state = .idle ∧ t.outputs = [.event (.onRequest 16 1 512 64)]) ∧
    nextIs (step (decoderAt .readLength 1 3 ⟨0xFF, 0xFF, 0xFF, 0⟩ 4294967295 4294967295 4294967295 0 (byteIn 0xFF)))
      (fun t => t.state = .idle ∧
        t.outputs = [.event (.onRequest 4294967295 4294967295 4294967295 4294967295)]) := by decide

/-- V11, V12. -/
theorem test_step_send_length :
    nextIs (step (decoderAt .readLength 2 3 Acc.zero 9 1 2 0 (byteIn 0))) (fun t =>
      t.state = .idle ∧ t.outputs = [.event (.onObjectReceived 9 1 2 [])]) ∧
    nextIs (step (decoderAt .readLength 2 3 Acc.zero 9 1 2 0 (byteIn 1))) (fun t =>
      t.state = .readData ∧ t.len = 1 ∧ t.cnt = 0 ∧ t.outputs = []) := by decide

/-- V13: a payload byte that looks like a tag is payload. -/
theorem test_step_payload_completes :
    nextIs (step (decoderAt .readData 2 0 (Acc.ofWord 1) 9 1 2 1 (byteIn 3))) (fun t =>
      t.state = .idle ∧ t.outputs = [.event (.onObjectReceived 9 1 2 [3])]) := by decide

/-- R118: a length above `MAX_PAYLOAD` is refused, one equal to it is not. -/
theorem test_step_max_payload :
    refusedIs (step { decoderAt .readLength 2 3 Acc.zero 9 1 2 0 (byteIn 5) with maxPayload := 4 })
      (.payloadTooLarge 5) ∧
    nextIs (step { decoderAt .readLength 2 3 Acc.zero 9 1 2 0 (byteIn 4) with maxPayload := 4 }) (fun t =>
      t.state = .readData ∧ t.len = 4) := by decide

/-- V15, V16. -/
theorem test_step_end_of_buffer :
    nextIs (step (decoderAt .readStart 2 1 Acc.zero 16 1 0 0 [.port .eob])) (fun t =>
      t.state = .idle ∧ t.cnt = 0 ∧ t.outputs = []) ∧
    nextIs (step { decoderAt .readStart 2 1 Acc.zero 16 1 0 0 [.port .eob] with mode := .persistent }) (fun t =>
      t.state = .readStart ∧ t.cnt = 1 ∧ t.obj = 16 ∧ t.inst = 1 ∧ t.outputs = []) := by decide

/-- V17 to V19. -/
theorem test_step_discarding :
    nextIs (step (discardingAt (byteIn 3))) (fun t => t.state = .idle ∧ t.abort ∧ t.tag = 0 ∧ t.outputs = []) ∧
    nextIs (step (discardingAt (byteIn 0x63))) (fun t => t.state = .idle ∧ t.abort ∧ t.outputs = []) ∧
    nextIs (step (discardingAt [.port .eob])) (fun t => t.state = .idle ∧ !t.abort) := by decide

/-- V20: `RESET` presents nothing; `MODE` is sampled. -/
theorem test_step_reset :
    nextIs (step { midPayload [.reset (some (.byte 3))] with modeInput := .persistent }) (fun t =>
      t.state = .idle ∧ t.cnt = 0 ∧ !t.abort ∧ t.pay = [] ∧ t.outputs = [] ∧ t.mode = .persistent ∧ t.input = []) := by
  decide

/-- V22. -/
theorem test_status_outputs :
    (midPayload []).busy = true ∧ (midPayload []).pending = 3 ∧ (midPayload []).observed = ([], true, 3) := by decide

/-- P4: a handler that fails (R128, R144). -/
theorem test_step_handler_fails :
    nextIs (step { decoderAt .readInstanceNo 3 3 Acc.zero 2 0 0 0 (byteIn 0) with answers := [.fail] }) (fun t =>
      t.outputs = [.event (.onCommand 2 0), .report .handlerFailure] ∧ t.abort ∧ t.state = .idle) := by decide

/-! ### The meanings, executed directly -/

theorem test_exec_request :
    nextIs (exec (.request 16 1 512 64) (idleAt [])) (fun t =>
      t.tag = 1 ∧ t.obj = 16 ∧ t.inst = 1 ∧ t.start = 512 ∧ t.len = 64 ∧ t.acc.b3 = 64 ∧ t.state = .idle ∧
      t.outputs = [.event (.onRequest 16 1 512 64)]) := by decide

theorem test_exec_send :
    nextIs (exec (.send 16 1 512 [0xAA, 0xBB, 0xCC]) (idleAt [])) (fun t =>
      t.tag = 2 ∧ t.len = 3 ∧ t.pay = [] ∧ t.outputs = [.event (.onObjectReceived 16 1 512 [0xAA, 0xBB, 0xCC])]) := by
  decide

/-- R123: a COMMAND does not write START and LEN. -/
theorem test_exec_command :
    nextIs (exec (.command 7 0) (decoderAt .idle 0 0 Acc.zero 1 2 3 4 [])) (fun t =>
      t.tag = 3 ∧ t.obj = 7 ∧ t.inst = 0 ∧ t.start = 3 ∧ t.len = 4 ∧ t.outputs = [.event (.onCommand 7 0)]) := by
  decide

/-- E7, E10. -/
theorem test_exec_encRequest :
    nextIs (exec (.encRequest 256 65536 16777216 255) State.reset) (fun t =>
      t.encOut = [.result (.ok [0x01, 0, 0, 1, 0, 0, 1, 0, 0, 1, 0, 0, 0, 0, 0, 0, 0xFF])]) ∧
    nextIs (exec (.encRequest 0 0 0 4294967296) State.reset) (fun t =>
      t.encOut = [.result (.err .fieldOutOfRange)]) := by decide

/-- E22 (its second command), E12. -/
theorem test_exec_encRequestD :
    nextIs (exec (.encRequestD 0 0 0 0) State.reset) (fun t =>
      t.encOut = [.send [0x01, 0, 0, 0, 0, 0, 0, 0, 0, 0, 0, 0, 0, 0, 0, 0, 0], .result .done]) ∧
    nextIs (exec (.encRequestD 4294967296 (-1) 0 0) State.reset) (fun t =>
      t.encOut = [.result (.err .fieldOutOfRange)]) := by decide

/-- E16, E19. -/
theorem test_exec_encSend :
    nextIs (exec (.encSend 16 1 512 [0xAA, 0xBB, 0xCC]) State.reset) (fun t =>
      t.encOut = [.result (.ok [0x02, 0, 0, 0, 0x10, 0, 0, 0, 1, 0, 0, 2, 0, 0, 0, 0, 3, 0xAA, 0xBB, 0xCC])]) ∧
    nextIs (exec (.encSend 0 4294967296 0 []) State.reset) (fun t =>
      t.encOut = [.result (.err .fieldOutOfRange)]) := by decide

/-- E22 (its first command). -/
theorem test_exec_encSendD :
    nextIs (exec (.encSendD 9 1 2 []) State.reset) (fun t =>
      t.encOut = [.send [0x02, 0, 0, 0, 9, 0, 0, 0, 1, 0, 0, 0, 2, 0, 0, 0, 0], .result .done]) ∧
    nextIs (exec (.encSendD 9 1 (-1) []) State.reset) (fun t =>
      t.encOut = [.result (.err .fieldOutOfRange)]) := by decide

/-- E3, E12. -/
theorem test_exec_encCommand :
    nextIs (exec (.encCommand 4294967295 4294967295) State.reset) (fun t =>
      t.encOut = [.result (.ok [0x03, 0xFF, 0xFF, 0xFF, 0xFF, 0xFF, 0xFF, 0xFF, 0xFF])]) ∧
    nextIs (exec (.encCommand 0 (-1)) State.reset) (fun t => t.encOut = [.result (.err .fieldOutOfRange)]) := by
  decide

/-- E20, E21. -/
theorem test_exec_encCommandD :
    nextIs (exec (.encCommandD 7 0) State.reset) (fun t =>
      t.encOut = [.send [0x03, 0, 0, 0, 7, 0, 0, 0, 0], .result .done]) ∧
    nextIs (exec (.encCommandD (-1) 0) State.reset) (fun t =>
      t.encOut = [.result (.err .fieldOutOfRange)]) := by decide

/-! ### Placed instructions -/

/-- Rows of the opcode table, placed after reset, are what the next step runs. -/
theorem test_placed_messages :
    nextIs (step (State.reset.withFetchWord 8 1)) (fun t => t.outputs = [.event (.onRequest 0 0 0 0)]) ∧
    nextIs (step (State.reset.withFetchWord 8 2)) (fun t => t.outputs = [.event (.onObjectReceived 0 0 0 [])]) ∧
    nextIs (step (State.reset.withFetchWord 8 3)) (fun t => t.outputs = [.event (.onCommand 0 0)]) ∧
    nextIs (step (placeInstr (.send 1 2 3 [4, 5, 6]) State.reset)) (fun t =>
      t.outputs = [.event (.onObjectReceived 1 2 3 [4, 5, 6])]) := by decide

theorem test_placed_commands :
    nextIs (step (State.reset.withFetchWord 3 2)) (fun t =>
      t.encOut = [.result (.ok [1, 0, 0, 0, 0, 0, 0, 0, 0, 0, 0, 0, 0, 0, 0, 0, 0])]) ∧
    nextIs (step (State.reset.withFetchWord 8 6)) (fun t =>
      t.encOut = [.result (.ok [3, 0, 0, 0, 0, 0, 0, 0, 0])]) ∧
    nextIs (step (State.reset.withFetchWord 8 7)) (fun t =>
      t.encOut = [.send [3, 0, 0, 0, 0, 0, 0, 0, 0], .result .done]) := by decide

/-! ### Witnesses: for each statement with hypotheses, a state and operands that meet all of them -/

/-- DecodeEncodeRoundTrip: a well-formed instruction of each unit, and one with bytes. -/
theorem witness_DecodeEncodeRoundTrip :
    (Instr.send 9 1 2 [3]).wellFormed = true ∧ (Instr.encSendD (-1) 1 2 [3]).wellFormed = true ∧
    encode (.send 9 1 2 [3]) = .wire [2, 0, 0, 0, 9, 0, 0, 0, 1, 0, 0, 0, 2, 0, 0, 0, 1, 3] := by decide

/-- DecodedBytesAreTheEncoding: bytes that decode, with bytes left over and with none. -/
theorem witness_DecodedBytesAreTheEncoding :
    decodeMessage [3, 0, 0, 0, 7, 0, 0, 0, 0] = .ok (.command 7 0, []) ∧
    decodeMessage [3, 0, 0, 0, 7, 0, 0, 0, 0, 0xFF] = .ok (.command 7 0, [0xFF]) := by decide

/-- OnlyIllegalTagsAreRejectedByTag: both sides of the equivalence, at the bytes next to the legal tags. -/
theorem witness_OnlyIllegalTagsAreRejectedByTag :
    decodeMessage [0] = .error (.invalidTag 0) ∧ decodeMessage [4] = .error (.invalidTag 4) ∧
    decodeMessage [1] ≠ .error (.invalidTag 1) ∧ decodeMessage [3] ≠ .error (.invalidTag 3) := by decide

/-- CommandKindZeroRefused: selectors 0 and 1. -/
theorem witness_CommandKindZeroRefused :
    (idleAt [.port (.command 0 {})]).input = [.port (.command (0#2 ++ BitVec.ofBool false) {})] ∧
    (idleAt [.port (.command 1 {})]).input = [.port (.command (0#2 ++ BitVec.ofBool true) {})] := by decide

/-- EncRequestReturnsItsBuffer and EncRequestDSendsItsBuffer: one operand just out of range at either end, the others at
the ends of the range. -/
theorem witness_EncRequestOutOfRange :
    ¬((0 ≤ (4294967295 : Int) ∧ (4294967295 : Int) ≤ 4294967295) ∧ (0 ≤ (0 : Int) ∧ (0 : Int) ≤ 4294967295) ∧
      (0 ≤ (0 : Int) ∧ (0 : Int) ≤ 4294967295) ∧ (0 ≤ (4294967296 : Int) ∧ (4294967296 : Int) ≤ 4294967295)) ∧
    ¬((0 ≤ (-1 : Int) ∧ (-1 : Int) ≤ 4294967295) ∧ (0 ≤ (0 : Int) ∧ (0 : Int) ≤ 4294967295) ∧
      (0 ≤ (0 : Int) ∧ (0 : Int) ≤ 4294967295) ∧ (0 ≤ (0 : Int) ∧ (0 : Int) ≤ 4294967295)) := by decide

theorem length_of_replicate (n : Nat) : (List.replicate n (0 : Byte)).length = n := List.length_replicate

/-- EncSendReturnsItsBuffer and EncSendDSendsItsBuffer, in range: the empty payload and the longest. -/
theorem witness_EncSendInRange :
    ([] : List Byte).length = (0 : Word).toNat ∧
    (List.replicate 4294967295 (0 : Byte)).length = (0xFFFFFFFF : Word).toNat :=
  ⟨rfl, length_of_replicate 4294967295⟩

/-- The same, out of range: by an operand, and by a payload of 2^32 bytes alone. -/
theorem witness_EncSendOutOfRange :
    ¬((0 ≤ (0 : Int) ∧ (0 : Int) ≤ 4294967295) ∧ (0 ≤ (4294967296 : Int) ∧ (4294967296 : Int) ≤ 4294967295) ∧
      (0 ≤ (0 : Int) ∧ (0 : Int) ≤ 4294967295) ∧ ([] : List Byte).length ≤ 4294967295) ∧
    ¬((0 ≤ (0 : Int) ∧ (0 : Int) ≤ 4294967295) ∧ (0 ≤ (0 : Int) ∧ (0 : Int) ≤ 4294967295) ∧
      (0 ≤ (0 : Int) ∧ (0 : Int) ≤ 4294967295) ∧ (List.replicate 4294967296 (0 : Byte)).length ≤ 4294967295) :=
  ⟨by decide, fun h => by have := h.2.2.2; rw [length_of_replicate 4294967296] at this; omega⟩

/-- EncCommandReturnsItsBuffer and EncCommandDSendsItsBuffer, out of range at either end. -/
theorem witness_EncCommandOutOfRange :
    ¬((0 ≤ (0 : Int) ∧ (0 : Int) ≤ 4294967295) ∧ (0 ≤ (-1 : Int) ∧ (-1 : Int) ≤ 4294967295)) ∧
    ¬((0 ≤ (4294967296 : Int) ∧ (4294967296 : Int) ≤ 4294967295) ∧ (0 ≤ (0 : Int) ∧ (0 : Int) ≤ 4294967295)) := by
  decide

/-- EncoderIsPure: a buffer-returning form and a dispatching one. -/
theorem witness_EncoderIsPure :
    (Instr.encRequest 0 0 0 0).isWire = false ∧ (Instr.encRequest 0 0 0 0).opcode % 2 = 0 ∧
    (Instr.encCommandD (-1) 0).isWire = false ∧ (Instr.encCommandD (-1) 0).opcode % 2 ≠ 0 := by decide

/-- EncoderBuffersAreMessages: a buffer returned and a buffer sent. -/
theorem witness_EncoderBuffersAreMessages :
    (Instr.encCommand 7 0).isWire = false ∧
    exec (.encCommand 7 0) State.reset =
      .next { State.reset with encOut := [.result (.ok [3, 0, 0, 0, 7, 0, 0, 0, 0])] } ∧
    (Instr.encCommandD 7 0).isWire = false ∧
    exec (.encCommandD 7 0) State.reset =
      .next { State.reset with encOut := [.send [3, 0, 0, 0, 7, 0, 0, 0, 0], .result .done] } :=
  ⟨rfl, rfl, rfl, rfl⟩

/-- EncoderErrorsAreFieldOutOfRange. -/
theorem witness_EncoderErrorsAreFieldOutOfRange :
    (Instr.encCommandD (-1) 0).isWire = false ∧
    exec (.encCommandD (-1) 0) State.reset =
      .next { State.reset with encOut := [.result (.err .fieldOutOfRange)] } ∧
    (.result (.err .fieldOutOfRange) : EncOutput) ∈ [EncOutput.result (.err .fieldOutOfRange)] :=
  ⟨rfl, rfl, by decide⟩

/-- RequestIsDischarged, both clauses, the fields at the ends of their range (V14). -/
theorem witness_RequestIsDischarged :
    (idleAt []).abort = false ∧
    (idleAt (bytesIn (1 :: (be32 0 ++ be32 0xFFFFFFFF ++ be32 0 ++ be32 0xFFFFFFFF)) ++ [])).Ready := by decide

/-- CommandIsDischarged, both clauses. -/
theorem witness_CommandIsDischarged :
    (idleAt []).abort = false ∧ (idleAt (bytesIn (3 :: (be32 7 ++ be32 0)) ++ [.port .eob])).Ready := by decide

/-- SendIsDischarged, both clauses: a payload of exactly `MAX_PAYLOAD` bytes, and an empty one. -/
theorem witness_SendIsDischarged :
    ({ idleAt [] with maxPayload := 2 } : State).abort = false ∧ [0xAA, (0xBB : Byte)].length = (2 : Word).toNat ∧
    (2 : Word) ≤ ({ idleAt [] with maxPayload := 2 } : State).maxPayload ∧
    ([] : List Byte).length = (0 : Word).toNat ∧ (0 : Word) ≤ State.reset.maxPayload ∧
    ({ idleAt (bytesIn (2 :: (be32 9 ++ be32 1 ++ be32 2 ++ be32 2 ++ [0xAA, 0xBB])) ++ []) with maxPayload := 2 } :
      State).Ready ∧
    (idleAt (bytesIn (2 :: (be32 9 ++ be32 1 ++ be32 2 ++ be32 0 ++ [])) ++ [])).Ready := by decide

/-- WireMessageFrame: a COMMAND that runs, and a message that is discarded. -/
theorem witness_WireMessageFrame :
    (Instr.command 7 0).isWire = true ∧ (idleAt []).abort = false ∧
    nextIs (exec (.command 7 0) (idleAt [])) (fun _ => true) ∧
    (Instr.request 1 2 3 4).isWire = true ∧ (discardingAt []).abort = true ∧
    nextIs (exec (.request 1 2 3 4) (discardingAt [])) (fun _ => true) := by decide

/-- SendAboveMaxPayloadRefused: one byte too many. -/
theorem witness_SendAboveMaxPayloadRefused :
    ({ idleAt [] with maxPayload := 2 } : State).abort = false ∧
    ({ idleAt [] with maxPayload := 2 } : State).maxPayload.toNat < [(1 : Byte), 2, 3].length := by decide

/-- HandlerAnswerFollowsTheEvent: each of the four cases. -/
theorem witness_HandlerAnswerFollowsTheEvent :
    eventOf (.send 9 1 2 [3]) = some (.onObjectReceived 9 1 2 [3]) ∧
    fitsPayload (idleAt []).maxPayload (.send 9 1 2 [3]) = true ∧ (idleAt []).abort = false ∧
    (idleAt []).answers = [.ok] ∧
    ({ idleAt [] with answers := [] } : State).abort = false ∧ ({ idleAt [] with answers := [] } : State).answers = [] ∧
    ({ idleAt [] with answers := [.notYet] } : State).abort = false ∧
    ({ idleAt [] with answers := [.notYet] } : State).answers = [.notYet] ∧
    ({ idleAt [] with answers := [.fail] } : State).abort = false ∧
    ({ idleAt [] with answers := [.fail] } : State).answers = [.fail] := by decide

/-- MessageBytesRunTheInstruction, for each kind of message. -/
theorem witness_MessageBytesRunTheInstruction :
    (Instr.command 7 0).wellFormed = true ∧ encode (.command 7 0) = .wire [3, 0, 0, 0, 7, 0, 0, 0, 0] ∧
    fitsPayload State.reset.maxPayload (.command 7 0) = true ∧
    (idleAt (bytesIn [3, 0, 0, 0, 7, 0, 0, 0, 0] ++ [.port .eob])).Ready ∧
    (Instr.send 9 1 2 [3]).wellFormed = true ∧
    encode (.send 9 1 2 [3]) = .wire [2, 0, 0, 0, 9, 0, 0, 0, 1, 0, 0, 0, 2, 0, 0, 0, 1, 3] ∧
    fitsPayload State.reset.maxPayload (.send 9 1 2 [3]) = true ∧
    (Instr.request 16 1 512 64).wellFormed = true ∧
    encode (.request 16 1 512 64) = .wire [1, 0, 0, 0, 16, 0, 0, 0, 1, 0, 0, 2, 0, 0, 0, 0, 64] := by decide

/-- EncodedBuffersRoundTrip: the decoder of each clause, and the shortest and a longer payload. -/
theorem witness_EncodedBuffersRoundTrip :
    (idleAt (bufferIn [3, 0, 0, 0, 7, 0, 0, 0, 0])).Ready ∧ (idleAt []).answers = .ok :: [] ∧
    ([] : List Byte).length < 2 ^ 32 ∧ [(3 : Byte)].length < 2 ^ 32 ∧
    [(3 : Byte)].length ≤ (idleAt []).maxPayload.toNat := by decide

/-- ConcatenatedMessagesYieldTheirEvents: two messages in one buffer, and in buffers of 4, 0 and 22 bytes. -/
theorem witness_ConcatenatedMessagesYieldTheirEvents :
    (∀ m ∈ [Instr.command 7 0, Instr.send 9 1 2 []],
      m.isWire = true ∧ m.wellFormed = true ∧ fitsPayload State.reset.maxPayload m = true) ∧
    (idleAt (bufferIn ([Instr.command 7 0, Instr.send 9 1 2 []].flatMap wireBytes))).Ready ∧
    ({ idleAt [] with answers := [.ok, .ok] } : State).answers = List.replicate 2 .ok ++ [] ∧
    ({ idleAt [] with mode := .persistent } : State).mode = .persistent ∧
    [[3, 0, 0, 0], [], [7, 0, 0, 0, 0, 2, 0, 0, 0, 9, 0, 0, 0, 1, 0, 0, 0, 2, 0, 0, 0, 0]].flatten =
      [Instr.command 7 0, Instr.send 9 1 2 []].flatMap wireBytes := by decide

/-- DecoderPresentsTheParse: a buffer with a byte that is no tag, a message, and bytes that end inside a message; and
what it amounts to (S2, R135). -/
theorem witness_DecoderPresentsTheParse :
    let bs : List Byte := [99, 3, 0, 0, 0, 7, 0, 0, 0, 0, 1, 0]
    let s : State := { idleAt (bytesIn bs ++ []) with answers := List.replicate 12 .ok }
    s.Ready ∧ s.maxPayload = Config.defaultMaxPayload ∧ (∀ a ∈ s.answers, a = .ok) ∧ bs.length ≤ s.answers.length ∧
    s.input = bytesIn bs ++ [] ∧
    parseOutputs bs.length bs = [.report (.invalidTag 99), .event (.onCommand 7 0)] := by decide

/-- LegalTagStartsAMessage, for each tag. -/
theorem witness_LegalTagStartsAMessage :
    (idleAt (byteIn 1)).Ready ∧ (idleAt (byteIn 1)).input = [.port (.byte 1)] ∧
    (idleAt (byteIn 2)).Ready ∧ (idleAt (byteIn 3)).Ready := by decide

/-- IllegalTagIsReportedAndSkipped: 0 and 4. -/
theorem witness_IllegalTagIsReportedAndSkipped :
    (idleAt (byteIn 0)).Ready ∧ (idleAt (byteIn 0)).input = [.port (.byte 0)] ∧ (0 : Byte) ≠ 1 ∧ (0 : Byte) ≠ 2 ∧
    (0 : Byte) ≠ 3 ∧ (idleAt (byteIn 4)).Ready ∧ (4 : Byte) ≠ 1 ∧ (4 : Byte) ≠ 2 ∧ (4 : Byte) ≠ 3 := by decide

/-- HeaderByteIsAccumulated: the third byte of a field. -/
theorem witness_HeaderByteIsAccumulated :
    let s := decoderAt .readStart 1 2 Acc.zero 0 0 0 0 (byteIn 0x63)
    s.state.isHeader = true ∧ s.abort = false ∧ s.awaiting = false ∧ s.input = [.port (.byte 0x63)] ∧ s.cnt < 3 := by
  decide

/-- ObjectIdAndStartComplete, each clause. -/
theorem witness_ObjectIdAndStartComplete :
    let s := decoderAt .readObjectId 3 3 Acc.zero 0 0 0 0 (byteIn 7)
    let t := decoderAt .readStart 2 3 Acc.zero 0 0 0 0 (byteIn 7)
    (s.abort = false ∧ s.awaiting = false ∧ s.input = [.port (.byte 7)] ∧ s.cnt = 3 ∧ s.state = .readObjectId) ∧
    (t.abort = false ∧ t.awaiting = false ∧ t.input = [.port (.byte 7)] ∧ t.cnt = 3 ∧ t.state = .readStart) := by
  decide

/-- InstanceNoCompletes, each clause. -/
theorem witness_InstanceNoCompletes :
    let s := decoderAt .readInstanceNo 3 3 Acc.zero 7 0 0 0 (byteIn 0)
    let t := decoderAt .readInstanceNo 2 3 Acc.zero 7 0 0 0 (byteIn 0)
    (s.state = .readInstanceNo ∧ s.abort = false ∧ s.awaiting = false ∧ s.input = [.port (.byte 0)] ∧ s.cnt = 3 ∧
      s.pay = [] ∧ s.tag = 3) ∧
    (t.state = .readInstanceNo ∧ t.abort = false ∧ t.awaiting = false ∧ t.input = [.port (.byte 0)] ∧ t.cnt = 3 ∧
      t.pay = [] ∧ t.tag ≠ 3) := by decide

/-- LengthCompletes: the common hypotheses, and each clause with `MAX_PAYLOAD` 4: a REQUEST, a SEND of length 0, of 5,
and of exactly 4. -/
theorem witness_LengthCompletes :
    let s (tag b : Byte) : State :=
      { decoderAt .readLength tag 3 Acc.zero 9 1 2 0 (byteIn b) with maxPayload := 4 }
    (∀ b : Byte, (s 1 b).state = .readLength ∧ (s 1 b).abort = false ∧ (s 1 b).awaiting = false ∧
      (s 1 b).cnt = 3 ∧ (s 1 b).pay = [] ∧ (s 1 b).tag = 1 ∧ (s 2 b).tag = 2 ∧ (s 2 b).maxPayload = 4) ∧
    unbe32 0 0 0 0 = 0 ∧ unbe32 0 0 0 5 ≠ 0 ∧ (4 : Word) < unbe32 0 0 0 5 ∧ unbe32 0 0 0 4 ≠ 0 ∧
    unbe32 0 0 0 4 ≤ (4 : Word) :=
  ⟨fun _ => ⟨rfl, rfl, rfl, rfl, rfl, rfl, rfl, rfl⟩, by decide⟩

theorem midPayload_inv : (midPayload (byteIn 3)).Inv := by
  refine ⟨?_, ?_, ?_, ?_, ?_, ?_, ?_⟩ <;> decide

theorem lastPayload_inv : (lastPayload (byteIn 3)).Inv := by
  refine ⟨?_, ?_, ?_, ?_, ?_, ?_, ?_⟩ <;> decide

/-- PayloadByteIsStored: a payload byte that is not the last, and the last one. -/
theorem witness_PayloadByteIsStored :
    ((midPayload (byteIn 3)).Inv ∧ (midPayload (byteIn 3)).state = .readData ∧
      (midPayload (byteIn 3)).input = [.port (.byte 3)] ∧
      (midPayload (byteIn 3)).cnt + 1 ≠ (midPayload (byteIn 3)).len) ∧
    ((lastPayload (byteIn 3)).Inv ∧ (lastPayload (byteIn 3)).state = .readData ∧
      (lastPayload (byteIn 3)).input = [.port (.byte 3)] ∧
      (lastPayload (byteIn 3)).cnt + 1 = (lastPayload (byteIn 3)).len) :=
  ⟨⟨midPayload_inv, by decide⟩, lastPayload_inv, by decide⟩

/-- AbortDiscardsBytes: a legal tag and an illegal one. -/
theorem witness_AbortDiscardsBytes :
    (discardingAt (byteIn 3)).abort = true ∧ (discardingAt (byteIn 3)).awaiting = false ∧
    (discardingAt (byteIn 3)).input = [.port (.byte 3)] ∧
    (discardingAt (byteIn 0x63)).input = [.port (.byte 0x63)] := by decide

/-- LegacyEndOfBuffer, in the middle of a payload; and the last clause of StatusOutputs there. -/
theorem witness_LegacyEndOfBuffer :
    (midPayload [.port .eob]).mode = .legacy ∧ (midPayload [.port .eob]).awaiting = false ∧
    (midPayload [.port .eob]).input = .port .eob :: [] ∧ nextIs (step (midPayload [.port .eob])) (fun _ => true) := by
  decide

/-- PersistentBuffersConcatenate: an `EOB` in the middle of a payload; and a COMMAND cut into two buffers,
whose handler answers at once, or at the second look, a step later. -/
theorem witness_PersistentBuffersConcatenate :
    let s : State := { midPayload [.port .eob] with mode := .persistent }
    let t : State := { idleAt [] with mode := .persistent }
    let bufs : List (List Byte) := [[3, 0, 0, 0], [7, 0, 0, 0, 0]]
    (s.mode = .persistent ∧ s.awaiting = false ∧ s.input = .port .eob :: []) ∧
    (t.mode = .persistent ∧ t.abort = false ∧ t.awaiting = false ∧
      nextIs (runSteps bufs.flatten.length { t with input := bytesIn bufs.flatten ++ [] })
        (fun u => u.outputs = [.event (.onCommand 7 0)] ∧ u.abort = false ∧ u.awaiting = false ∧ u.input = []) ∧
      nextIs (runSteps 10 { t with input := bytesIn bufs.flatten ++ [], answers := [.notYet, .ok] })
        (fun u => u.abort = false ∧ u.awaiting = false ∧ u.input = [])) := by decide

/-- ResetEvent: alone, and together with a byte. -/
theorem witness_ResetEvent :
    (midPayload [.reset none]).input = .reset none :: [] ∧
    (midPayload [.reset (some (.byte 3))]).input = .reset (some (.byte 3)) :: [] := by decide

/-- AnswerComesBeforeInput: each of its clauses in front of a byte, and with nothing presented. -/
theorem witness_AnswerComesBeforeInput :
    let s (l : List Answer) : State := waitingAt (byteIn 3) l
    (∀ l, (s l).awaiting = true ∧ (s l).answers = l) ∧ (∀ l along rest, (s l).input ≠ .reset along :: rest) ∧
    (∀ l selector x rest, (s l).input ≠ .port (.command selector x) :: rest) ∧
    (waitingAt [] [.ok]).input = [] ∧ (waitingAt [] [.ok]).awaiting = true :=
  ⟨fun _ => ⟨rfl, rfl⟩, fun _ _ _ => by simp [waitingAt, idleAt, decoderAt, byteIn],
    fun _ _ _ _ => by simp [waitingAt, idleAt, decoderAt, byteIn], rfl, rfl⟩

/-- The last clause of HandlerAnswerFollowsTheEvent: a COMMAND in front of the end of the buffer; and one look in vain, the answer `fail` at
the next, seen by hand. -/
theorem witness_HandlerAnswerFollowsTheEvent_late :
    let s : State := idleAt [.port .eob]
    ((Instr.command 7 0).isWire = true ∧ fitsPayload s.maxPayload (.command 7 0) = true ∧ s.abort = false) ∧
    (∀ along rest, s.input ≠ .reset along :: rest) ∧
    (∀ selector x rest, s.input ≠ .port (.command selector x) :: rest) ∧
    nextIs (exec (.command 7 0) { s with answers := [.notYet, .fail] }) (fun t =>
      t.outputs = [.event (.onCommand 7 0)] ∧ t.awaiting ∧
      nextIs (step t) (fun u => u.outputs = [.event (.onCommand 7 0), .report .handlerFailure] ∧ u.abort ∧
        u.awaiting = false ∧ u.input = [.port .eob])) :=
  ⟨by decide, fun _ _ => by simp [idleAt, decoderAt], fun _ _ _ => by simp [idleAt, decoderAt], by decide⟩

/-- ResetOvertakesTheAnswer: two COMMANDs with `RESET` between them, and each answer to the second (R172, R182). -/
theorem witness_ResetOvertakesTheAnswer :
    let s (a : Answer) : State :=
      { idleAt (bytesIn (wireBytes (.command 7 0)) ++ .reset none :: (bytesIn (wireBytes (.command 8 1)) ++ []))
        with answers := [.notYet, a] }
    ((Instr.command 7 0).wellFormed = true ∧ (Instr.command 8 1).wellFormed = true ∧
      fitsPayload State.reset.maxPayload (.command 7 0) = true ∧
      fitsPayload State.reset.maxPayload (.command 8 1) = true ∧
      eventOf (.command 7 0) = some (.onCommand 7 0) ∧ eventOf (.command 8 1) = some (.onCommand 8 1)) ∧
    (s .ok).Ready ∧ (s .fail).Ready ∧
    nextIs (runSteps 9 (s .ok)) (fun t => t.outputs = [.event (.onCommand 7 0)] ∧ t.awaiting ∧ t.answers = [.ok]) :=
  ⟨by decide, by decide, by decide, by decide⟩

/-- StatusOutputs: in READ_DATA and outside it (the last clause: witness_LegacyEndOfBuffer). -/
theorem witness_StatusOutputs :
    (midPayload []).Inv ∧ (midPayload []).state = .readData ∧ (idleAt []).state ≠ .readData := by decide

/-- StepRunsTheDecodedMessage: the last byte of a REQUEST. -/
theorem witness_StepRunsTheDecodedMessage_request :
    let s := decoderAt .readLength 1 3 Acc.zero 16 1 512 0 (byteIn 0x40)
    s.Inv ∧ s.abort = false ∧ s.awaiting = false ∧ s.input = .port (.byte 0x40) :: [] ∧
    decodeMessage (fetchedBytes s ++ [0x40]) = .ok (.request 16 1 512 64, []) ∧
    fitsPayload s.maxPayload (.request 16 1 512 64) = true :=
  ⟨by decide, rfl, rfl, rfl, by decide, rfl⟩

/-- The same: the last byte of a SEND. -/
theorem witness_StepRunsTheDecodedMessage_send :
    let s := lastPayload (byteIn 3)
    s.Inv ∧ s.abort = false ∧ s.awaiting = false ∧ s.input = .port (.byte 3) :: [] ∧
    decodeMessage (fetchedBytes s ++ [3]) = .ok (.send 32 0 0 [1, 2, 3], []) ∧
    fitsPayload s.maxPayload (.send 32 0 0 [1, 2, 3]) = true :=
  ⟨lastPayload_inv, rfl, rfl, rfl, by decide, by decide⟩

/-- The same: the last byte of a COMMAND. -/
theorem witness_StepRunsTheDecodedMessage_command :
    let s := decoderAt .readInstanceNo 3 3 Acc.zero 7 0 0 0 (byteIn 0)
    s.Inv ∧ s.abort = false ∧ s.awaiting = false ∧ s.input = .port (.byte 0) :: [] ∧
    decodeMessage (fetchedBytes s ++ [0]) = .ok (.command 7 0, []) ∧
    fitsPayload s.maxPayload (.command 7 0) = true :=
  ⟨by decide, rfl, rfl, rfl, by decide, rfl⟩

/-- StepRunsTheDecodedCommand, in the middle of a message. -/
theorem witness_StepRunsTheDecodedCommand :
    (midPayload [.port (.command 6 { first := 7 })]).input = .port (.command 6 { first := 7 }) :: [] ∧
    decodePort 6 { first := 7 } = .ok (.encCommand 7 0) := by decide

/-- PlacedInstructionRunsNext, each clause. -/
theorem witness_PlacedInstructionRunsNext :
    (Instr.send 9 1 2 [3]).wellFormed = true ∧ fitsPayload State.reset.maxPayload (.send 9 1 2 [3]) = true ∧
    (Instr.send 9 1 2 [3]).isWire = true ∧ (Instr.encCommand 7 0).wellFormed = true ∧
    (Instr.encCommand 7 0).isWire = false := by decide

/-- EveryStepKeepsTheInvariant, InvariantStatesNeverFault and EveryStepKeepsPayCanonical, in the middle of a payload; and
a step from there that is refused. -/
theorem witness_EveryStepKeepsTheInvariant :
    (midPayload (byteIn 3)).Inv ∧ (midPayload (byteIn 3)).pay.wf = true ∧
    nextIs (step (midPayload (byteIn 3))) (fun t => t.cnt = 3) ∧
    (midPayload [.port (.command 1 {})]).Inv ∧
    refusedIs (step (midPayload [.port (.command 1 {})])) (.noSuchCommand 1) :=
  ⟨midPayload_inv, by decide, by decide, by decide, by decide⟩

/-- ParametersAreStatic, StepTakesOneEvent and StepPresentsAtMostOneEvent: steps that are a `RESET`, a byte, a message
whose handler fails, a late failure, and a stall. -/
theorem witness_StepTakesOneEvent :
    nextIs (step (midPayload [.reset none])) (fun t => t.input = []) ∧
    nextIs (step (idleAt (byteIn 9))) (fun t => t.outputs = [.report (.invalidTag 9)]) ∧
    nextIs (step { decoderAt .readInstanceNo 3 3 Acc.zero 2 0 0 0 (byteIn 0) with answers := [.fail] })
      (fun t => t.outputs.length = 2) ∧
    nextIs (step (waitingAt [] [.fail])) (fun t => t.outputs = [.report .handlerFailure] ∧ t.abort) ∧
    nextIs (step (waitingAt (byteIn 3) [])) (fun t => t.input = byteIn 3) := by decide

/-- UnitsDoNotInteract: a step of the decoder and a step of the encoder, which takes a command in two different states. -/
theorem witness_UnitsDoNotInteract :
    (∀ c y rest, (idleAt (byteIn 1)).input ≠ .port (.command c y) :: rest) ∧
    nextIs (step (idleAt (byteIn 1))) (fun t => t.tag = 1) ∧
    (idleAt [.port (.command 6 {})]).input = .port (.command 6 {}) :: [] ∧
    nextIs (step (idleAt [.port (.command 6 {})])) (fun t => t.encOut.length = 1) ∧
    nextIs (step (midPayload [.port (.command 6 {})])) (fun t => t.encOut.length = 1) :=
  ⟨fun _ _ _ => by simp [idleAt, decoderAt, byteIn], by decide, rfl, by decide, by decide⟩

/-- A decoder in READ_INSTANCE_NO with one byte of ACC received. -/
def midField : State := decoderAt .readInstanceNo 3 1 ⟨7, 0, 0, 0⟩ 4 0 0 0 (byteIn 1)

/-- ValuelessRegistersAreNotRead, at the edges of R20's table: IDLE, where nothing holds a value; a header state, where TAG,
OBJ and one byte of ACC do; READ_DATA, where all but ACC do; and a byte of ACC, OBJ and LEN that do differ. -/
theorem witness_ValuelessRegistersAreNotRead :
    (idleAt (byteIn 1)).SameValues ((idleAt (byteIn 1)).withRegisters 9 ⟨1, 2, 3, 4⟩ 5 6 7 8) ∧
    midField.SameValues (midField.withRegisters 3 ⟨7, 2, 3, 4⟩ 4 6 7 8) ∧
    ¬ midField.SameValues (midField.withRegisters 3 ⟨6, 0, 0, 0⟩ 4 0 0 0) ∧
    ¬ midField.SameValues (midField.withRegisters 3 ⟨7, 0, 0, 0⟩ 5 0 0 0) ∧
    (midPayload (byteIn 3)).SameValues ((midPayload (byteIn 3)).withRegisters 2 ⟨1, 2, 3, 4⟩ 32 0 0 5) ∧
    ¬ (midPayload (byteIn 3)).SameValues ((midPayload (byteIn 3)).withRegisters 2 (Acc.ofWord 5) 32 0 0 6) :=
  ⟨by decide, by decide, by decide, by decide, by decide, by decide⟩

/-- The same statement's outcomes: next states from two of those states, a refusal, and a fault from a state no run reaches. -/
theorem witness_ValuelessRegistersAreNotRead_outcomes :
    nextIs (step midField) (fun t => t.cnt = 2) ∧ nextIs (step (midPayload (byteIn 3))) (fun t => t.cnt = 3) ∧
    refusedIs (step (idleAt [.port (.command 1 {})])) (.noSuchCommand 1) ∧
    step { midField with cnt := 4 } = .fault .accOutOfRange :=
  ⟨by decide, by decide, by decide, rfl⟩

/-- ResetContentsAreNeverObserved: a run that is a next state, and one that is refused. -/
theorem witness_ResetContentsAreNeverObserved :
    nextIs (runSteps 2 (State.startOf .legacy (byteIn 3 ++ byteIn 0) [])) (fun t => t.busy) ∧
    nextIs (runSteps 2 ((State.startOf .legacy (byteIn 3 ++ byteIn 0) []).withRegisters 9 ⟨1, 2, 3, 4⟩ 5 6 7 8))
      (fun t => t.busy) ∧
    refusedIs (runSteps 1 (State.startOf .persistent [.port (.command 0 {})] [])) (.noSuchCommand 0) := by decide

/-- FailedHandlerCostsTheBuffer. -/
theorem witness_FailedHandlerCostsTheBuffer :
    (discardingAt (bufferIn [3, 0x63])).Inv ∧ (discardingAt (bufferIn [3, 0x63])).abort = true ∧
    (discardingAt (bufferIn [3, 0x63])).input = bufferIn [3, 0x63] ++ [] := by decide

/-- SplitMessageIsLostInLegacy: a SEND cut before its last byte, and before its first. -/
theorem witness_SplitMessageIsLostInLegacy :
    let bs : List Byte := [2, 0, 0, 0, 9, 0, 0, 0, 1, 0, 0, 0, 2, 0, 0, 0, 1, 3]
    let s := idleAt (bufferIn (bs.take 17))
    (Instr.send 9 1 2 [3]).wellFormed = true ∧ encode (.send 9 1 2 [3]) = .wire bs ∧
    fitsPayload s.maxPayload (.send 9 1 2 [3]) = true ∧ 17 < bs.length ∧ 0 < bs.length ∧ s.mode = .legacy ∧
    s.Ready ∧ s.input = bufferIn (bs.take 17) ++ [] := by decide

end Sys2Proof.Machine
end

/-! PROOFS. The static parameters (R4, R151), and the independence of the decoder and the encoder (R2, R25, R153). -/

namespace Sys2Proof.Machine

/-! ### The end of a buffer -/

@[simp] theorem endOfBuffer_mode (s : State) : (endOfBuffer s).mode = s.mode := by
  unfold endOfBuffer; split <;> rfl
@[simp] theorem endOfBuffer_modeInput (s : State) : (endOfBuffer s).modeInput = s.modeInput := by
  unfold endOfBuffer; split <;> rfl
@[simp] theorem endOfBuffer_maxPayload (s : State) : (endOfBuffer s).maxPayload = s.maxPayload := by
  unfold endOfBuffer; split <;> rfl

/-- The end of a buffer carries the encoder's output along. -/
theorem endOfBuffer_setEncOut (s : State) (x : List EncOutput) :
    endOfBuffer { s with encOut := x } = { endOfBuffer s with encOut := x } := by
  unfold endOfBuffer; dsimp only; split <;> rfl

/-! ### The static parameters -/

/-- Settles O52, by what each kind of step leads to: only the `RESET` event writes `MODE`. -/
theorem parametersAreStatic : Obligations.ParametersAreStatic := by
  intro s t h
  rcases step_cases h with ⟨rfl, -⟩ | ⟨rfl, -⟩ | ⟨along, rest, hi, rfl⟩ | ⟨rest, -, -, rfl⟩ |
    ⟨c, x, rest, i, new, -, -, -, rfl⟩ | ⟨b, rest, u, -, -, hu, ⟨-, rfl, -⟩ | ⟨i, e, -, -, -, -, -, -, rfl⟩⟩
  · exact ⟨rfl, rfl, .inl rfl⟩
  · simp
  · exact ⟨rfl, rfl, .inr ⟨along, hi, rfl⟩⟩
  · simp
  · exact ⟨rfl, rfl, .inl rfl⟩
  · exact ⟨hu.maxPayload, hu.modeInput, .inl hu.mode⟩
  · simp [hu.maxPayload, hu.modeInput, hu.mode]

/-! ### The two units -/

/-- A command of the port is the encoder's. -/
theorem decodePort_isWire {c : BitVec 3} {y : Operands} {i : Instr} (h : decodePort c y = .ok i) :
    i.isWire = false := by
  unfold decodePort at h
  split_ifs at h <;> cases h <;> rfl

/-- A selector that names no command is refused (R72, U12). -/
theorem fetch_noSuchCommand {s : State} {c : BitVec 3} {y : Operands} {rest : List Event} {e : DecodeError}
    (h : s.input = .port (.command c y) :: rest) (hd : decodePort c y = .error e) :
    fetch s = .refused (.noSuchCommand c) := by
  simp [fetch, h, hd]

/-- What a command puts out is fixed before any state is chosen, and nothing else changes. -/
theorem exec_command_fixedOutput {i : Instr} (h : i.isWire = false) :
    ∃ new : List EncOutput, ∀ s : State, exec i s = .next { s with encOut := s.encOut ++ new } :=
  (exec_command h).elim (fun hs => ⟨_, hs⟩) fun hs => ⟨_, hs⟩

/-- Another encoder output alone is the edge with the state's own POS and input. -/
theorem State.withEdge_eq_setEncOut {s : State} {p : Nat} {i : List Event} (x : List EncOutput) (hp : s.pos = p)
    (hi : s.input = i) : s.withEdge p i x = { s with encOut := x } := by
  subst hp hi; rfl

/-- A step that takes no command does the same whatever the encoder has put out. `RESET` comes before the look for an
awaited answer (R170, R172), so it is split off first. -/
theorem step_setEncOut {s t : State} (x : List EncOutput) (hc : ∀ c y rest, s.input ≠ .port (.command c y) :: rest)
    (h : step s = .next t) : step { s with encOut := x } = .next { t with encOut := x } := by
  let s' : State := { s with encOut := x }
  by_cases hr : ∃ along rest, s.input = .reset along :: rest
  · obtain ⟨along, rest, hi⟩ := hr
    rw [step_taken (fetch_reset hi)] at h; cases h
    exact step_taken (fetch_reset (s := s') hi)
  rcases step_cases h with ⟨rfl, hi, hw⟩ | ⟨rfl, hw, -⟩ | ⟨along, rest, hi, -⟩ | ⟨rest, hi, hw, rfl⟩ |
    ⟨c, y, rest, -, -, hi, -⟩ | ⟨b, rest, u, hi, hw, hu, ht⟩
  · exact step_taken (fetch_noInput (s := s') hi hw)
  · rw [step_awaiting (s := s') hw (fun along rest hi => hr ⟨along, rest, hi⟩) hc]
    exact congrArg Host.Outcome.next ((takeAnswer_withEdge s s.pos s.input x).trans
      (State.withEdge_eq_setEncOut x (takeAnswer_pos s) (takeAnswer_input s)))
  · exact absurd ⟨along, rest, hi⟩ hr
  · rw [step_taken (fetch_eob (s := s') hi hw)]
    exact congrArg Host.Outcome.next (endOfBuffer_setEncOut { s with input := rest } x)
  · exact absurd hi (hc c y rest)
  · obtain ⟨hpos, hin⟩ : t.pos = s.pos + 1 ∧ t.input = rest := by
      rcases ht with ⟨-, rfl, -⟩ | ⟨i, e, -, -, -, -, -, -, rfl⟩
      · exact ⟨hu.pos, hu.input⟩
      · simp [hu.pos, hu.input]
    rw [← State.withEdge_eq_setEncOut x rfl hi, ← State.withEdge_eq_setEncOut x hpos hin]
    exact step_byte_withEdge hw hi h s.pos rest x

/-- Settles O55: the decoder's steps carry the encoder's output along, and a command's output is fixed by the command. -/
theorem unitsDoNotInteract : Obligations.UnitsDoNotInteract := by
  refine ⟨fun s t x hc h => step_setEncOut x hc h, fun c y => ?_⟩
  cases hd : decodePort c y with
  | error e =>
    refine ⟨[], fun s t rest hi h => ?_⟩
    rw [step_refused (fetch_noSuchCommand hi hd)] at h; cases h
  | ok i =>
    obtain ⟨new, hnew⟩ := exec_command_fixedOutput (decodePort_isWire hd)
    refine ⟨new, fun s t rest hi h => ?_⟩
    rw [step_run (fetch_command hi hd), hnew] at h
    cases h; rfl

end Sys2Proof.Machine

/-! PROOFS. The state (10_state.md): the invariant that every step keeps (R12, R14 to R17, R20), the stops it leaves,
the registers that hold no value (R20), and the status outputs (R19). -/

namespace Sys2Proof.Machine

/-! ### The invariant, by STATE -/

/-- STATE is IDLE, READ_DATA or a header state. -/
theorem AutoState.idle_or_data_or_header (a : AutoState) : a = .idle ∨ a = .readData ∨ a.isHeader = true := by
  cases a <;> simp [AutoState.isHeader]

/-- A header state is neither IDLE nor READ_DATA. -/
theorem header_ne {a : AutoState} (h : a.isHeader = true) : a ≠ .idle ∧ a ≠ .readData := by
  constructor <;> (rintro rfl; cases h)

/-- The invariant of a state in IDLE. -/
theorem inv_of_idle {s : State} (hs : s.state = .idle) (hc : s.cnt = 0) (hp : s.pay = [])
    (hw : s.awaiting = true → s.abort = false) : s.Inv := by
  simpa [State.Inv, hs, hc, hp, AutoState.isHeader] using hw

/-- The invariant of a header state that discards nothing and awaits nothing. -/
theorem inv_of_header {s : State} (hs : s.state.isHeader = true) (hc : s.cnt < 4) (ht : isTag s.tag = true)
    (hn : s.state = .readStart ∨ s.state = .readLength → s.tag ≠ tagCommand) (hp : s.pay = [])
    (ha : s.abort = false) (hw : s.awaiting = false) : s.Inv := by
  refine ⟨?_, fun _ => ⟨hc, ht⟩, hn, ?_, fun _ => hp, by simp [ha], by simp [hw]⟩ <;>
    (intro h; simp [h, AutoState.isHeader] at hs)

/-- The invariant of READ_DATA while nothing is discarded or awaited. -/
theorem inv_of_data {s : State} (hs : s.state = .readData) (ht : s.tag = tagSend) (hacc : s.acc = Acc.ofWord s.len)
    (hc : s.cnt < s.len) (hm : s.len ≤ s.maxPayload) (hlen : s.pay.length = s.cnt.toNat)
    (hpay : Memory.ofBytes 0 (s.pay.map Prod.snd) = s.pay) (ha : s.abort = false) (hw : s.awaiting = false) :
    s.Inv := by
  simp [State.Inv, hs, ht, hacc, hc, hm, hlen, hpay, ha, hw, AutoState.isHeader]

/-- What the invariant says of a state that the decoder has left IDLE for. -/
theorem State.Inv.active {s : State} (h : s.Inv) (hs : s.state ≠ .idle) : s.abort = false ∧ s.awaiting = false := by
  obtain ⟨-, -, -, -, -, ha, hw⟩ := h
  exact ⟨Bool.eq_false_iff.mpr fun e => hs (ha e), Bool.eq_false_iff.mpr fun e => hs (hw e).1⟩

/-- PAY exists in READ_DATA alone (R16). -/
theorem State.Inv.noPay {s : State} (h : s.Inv) (hs : s.state ≠ .readData) : s.pay = [] := by
  obtain ⟨-, -, -, -, hpay, -, -⟩ := h
  exact hpay hs

/-- What the invariant says of a header state. -/
theorem State.Inv.header {s : State} (h : s.Inv) (hs : s.state.isHeader = true) :
    s.cnt < 4 ∧ isTag s.tag = true ∧ (s.state = .readStart ∨ s.state = .readLength → s.tag ≠ tagCommand) ∧
    s.pay = [] ∧ s.abort = false ∧ s.awaiting = false := by
  obtain ⟨hidle, hdata⟩ := header_ne hs
  have hpay := h.noPay hdata
  have hactive := h.active hidle
  obtain ⟨-, hhead, hnotCommand, -⟩ := h
  exact ⟨(hhead hs).1, (hhead hs).2, hnotCommand, hpay, hactive⟩

/-- What the invariant says of READ_DATA but for PAY. -/
theorem State.Inv.data {s : State} (h : s.Inv) (hs : s.state = .readData) :
    s.tag = tagSend ∧ s.acc = Acc.ofWord s.len ∧ s.cnt < s.len ∧ s.len ≤ s.maxPayload ∧
    s.abort = false ∧ s.awaiting = false := by
  have hactive := h.active (by simp [hs])
  obtain ⟨-, -, -, hdata, -⟩ := h
  obtain ⟨htag, hacc, hlt, hmax, -⟩ := hdata hs
  exact ⟨htag, hacc, hlt, hmax, hactive⟩

/-- In READ_DATA, PAY is the bytes received, from address 0 upward (R16), and a store of the next one appends it. -/
theorem State.Inv.pay_write {s : State} (h : s.Inv) (hs : s.state = .readData) (b : Byte) :
    ∃ bs : List Byte, s.pay.write s.cnt.toNat b = Memory.ofBytes 0 bs ∧ bs.length = s.cnt.toNat + 1 := by
  obtain ⟨-, -, -, hdata, -⟩ := h
  obtain ⟨-, -, -, -, hlen, hpay⟩ := hdata hs
  refine ⟨s.pay.map Prod.snd ++ [b], ?_, by simp [hlen]⟩
  have happend := Memory.write_ofBytes 0 (s.pay.map Prod.snd) b
  rwa [Nat.zero_add, List.length_map, hlen, hpay] at happend

/-! ### Outside the automaton -/

/-- A look that leaves the answer awaited leaves ABORT clear. -/
theorem takeAnswer_awaiting {s : State} (ha : s.abort = false) (hw : (takeAnswer s).awaiting = true) :
    (takeAnswer s).abort = false := by
  rcases takeAnswer_cases s with ⟨-, h⟩ | ⟨later, -, h⟩ | ⟨later, -, h⟩ | ⟨later, -, h⟩ <;> rw [h] at hw ⊢
  · exact ha
  · exact ha
  · exact ha
  · cases hw

/-- A look for an awaited answer keeps the invariant (R128). -/
theorem takeAnswer_inv {s : State} (h : s.Inv) (hw : s.awaiting = true) : (takeAnswer s).Inv := by
  obtain ⟨hidle, -, -, -, hpay, -, haw⟩ := h
  obtain ⟨hs, ha⟩ := haw hw
  exact inv_of_idle (by rwa [takeAnswer_state]) (by rw [takeAnswer_cnt, hidle hs])
    (by rw [takeAnswer_pay, hpay (by simp [hs])]) (takeAnswer_awaiting ha)

/-- A discharge ends in a state that meets the invariant (R120). -/
theorem discharge_inv {s : State} (e : HandlerEvent) (ha : s.abort = false) : (discharge e s).Inv :=
  inv_of_idle (discharge_state e s) (discharge_cnt e s) (discharge_pay e s)
    (takeAnswer_awaiting (s := State.emit { s with state := .idle, cnt := 0, pay := [] } e) ha)

/-- `RESET` ends in a state that meets the invariant, whatever came before. -/
theorem resetEvent_inv (s : State) : (resetEvent s).Inv :=
  inv_of_idle rfl rfl rfl (by simp)

/-- The end of a buffer keeps the invariant, in either mode. -/
theorem endOfBuffer_inv {s : State} (h : s.Inv) : (endOfBuffer s).Inv := by
  unfold endOfBuffer
  split
  · exact inv_of_idle rfl rfl rfl fun _ => rfl
  · obtain ⟨hidle, hhead, hnotCommand, hdata, hpay, -, haw⟩ := h
    exact ⟨hidle, hhead, hnotCommand, hdata, hpay, nofun, fun hw => ⟨(haw hw).1, rfl⟩⟩

/-! ### A byte of each kind -/

/-- A byte in IDLE keeps the invariant. -/
theorem idleByte_inv {b : Byte} {s t : State} (h : s.Inv) (hs : s.state = .idle) (ha : s.abort = false)
    (hw : s.awaiting = false) (hb : idleByte b s = .taken t) : t.Inv := by
  have hpay : s.pay = [] := h.noPay (by simp [hs])
  unfold idleByte at hb
  split at hb
  next htag =>
    cases hb
    exact inv_of_header rfl (show (0 : Word) < 4 by decide) htag (by simp) hpay ha hw
  · cases hb
    exact h

/-- A field just completed, the last one still held in ACC, moves the automaton to a state that meets the invariant. -/
theorem completeField_inv {s t : State} (h : s.Inv) (hs : s.state.isHeader = true)
    (hacc : s.state = .readLength → s.acc = Acc.ofWord s.len) (hf : completeField s = .taken t) : t.Inv := by
  obtain ⟨hc, htag, hnotCommand, hpay, ha, hw⟩ := h.header hs
  cases hst : s.state
  case idle | readData => simp [hst, AutoState.isHeader] at hs
  case readObjectId =>
    rw [completeField_objectId hst] at hf; cases hf
    exact inv_of_header rfl hc htag (by simp) hpay ha hw
  case readInstanceNo =>
    by_cases ht : s.tag = tagCommand
    · rw [completeField_command hst ht] at hf; cases hf
    · rw [completeField_instanceNo hst ht] at hf; cases hf
      exact inv_of_header rfl hc htag (fun _ => ht) hpay ha hw
  case readStart =>
    rw [completeField_start hst] at hf; cases hf
    exact inv_of_header rfl hc htag (fun _ => hnotCommand (.inl hst)) hpay ha hw
  case readLength =>
    by_cases ht : s.tag = tagRequest
    · rw [completeField_request hst ht] at hf; cases hf
    by_cases hl : s.len = 0
    · rw [completeField_emptySend hst ht hl] at hf; cases hf
    by_cases hm : s.maxPayload < s.len
    · rw [completeField_tooLong hst ht hl hm] at hf; cases hf
    rw [completeField_payload hst ht hl hm] at hf; cases hf
    have hsend : s.tag = tagSend := by
      simpa [isTag, ht, hnotCommand (.inr hst)] using htag
    exact inv_of_data rfl hsend (hacc hst) (by simpa [BitVec.pos_iff_ne_zero] using hl) (by simpa using hm) rfl rfl
      ha hw

/-- Writing a field register leaves TAG as it is. -/
theorem setField_tag (s : State) (f : Nat) (v : Word) : (s.setField f v).tag = s.tag := by
  unfold State.setField; split <;> rfl

/-- In a header state no field register matters to the invariant. -/
theorem setField_inv {s : State} (f : Nat) (v : Word) (h : s.Inv) (hs : s.state.isHeader = true) :
    (s.setField f v).Inv := by
  obtain ⟨hc, htag, hnotCommand, hnoPay, ha, hw⟩ := h.header hs
  obtain ⟨hout, -, hpay, hst, hcnt⟩ := setField_outside s f v
  have ht := setField_tag s f v
  exact inv_of_header (by rwa [hst]) (by rwa [hcnt]) (by rwa [ht]) (by rwa [hst, ht])
    (hpay.trans hnoPay) (hout.abort.trans ha) (hout.awaiting.trans hw)

/-- A byte of a header field keeps the invariant. -/
theorem headerByte_inv {b : Byte} {s t : State} (h : s.Inv) (hs : s.state.isHeader = true)
    (hb : headerByte b s = .taken t) : t.Inv := by
  obtain ⟨hc, htag, hnotCommand, hpay, ha, hw⟩ := h.header hs
  cases hset : s.acc.set s.cnt.toNat b with
  | none => rw [headerByte_outOfRange hset] at hb; cases hb
  | some acc =>
    by_cases h4 : s.cnt + 1 = 4
    · rw [headerByte_fourth hset h4] at hb
      have hr : State.Inv { s with acc := acc, cnt := 0 } :=
        inv_of_header hs (show (0 : Word) < 4 by decide) htag hnotCommand hpay ha hw
      obtain ⟨-, -, -, hust, -⟩ := setField_outside { s with acc := acc, cnt := 0 } (s.state.number - 1) acc.toWord
      refine completeField_inv (setField_inv _ _ hr hs) (by rwa [hust]) (fun hl => ?_) hb
      have hl : s.state = .readLength := hust.symm.trans hl
      simp [hl, AutoState.number]
    · rw [headerByte_more hset h4] at hb; cases hb
      refine inv_of_header hs ?_ htag hnotCommand hpay ha hw
      show s.cnt + 1 < 4
      bv_omega

/-- A byte of the payload keeps the invariant. -/
theorem dataByte_inv {b : Byte} {s t : State} (h : s.Inv) (hs : s.state = .readData)
    (hb : dataByte b s = .taken t) : t.Inv := by
  obtain ⟨bs, hpay, hlen⟩ := h.pay_write hs b
  obtain ⟨htag, hacc, hlt, hmax, ha, hw⟩ := h.data hs
  by_cases he : s.cnt + 1 = s.len
  · cases hr : Memory.range (s.pay.write s.cnt.toNat b) 0 s.len.toNat with
    | none => rw [dataByte_unwritten hlt he hr] at hb; cases hb
    | some payload => rw [dataByte_last hlt he hr] at hb; cases hb
  · rw [dataByte_more hlt he] at hb; cases hb
    have hcnt : (s.cnt + 1).toNat = s.cnt.toNat + 1 := by bv_omega
    refine inv_of_data hs htag hacc ?_ hmax ?_ ?_ ha hw
    · show s.cnt + 1 < s.len
      bv_omega
    · rw [hpay, Memory.ofBytes_length, hlen, hcnt]
    · rw [hpay, Memory.ofBytes_bytes]

/-! ### Every step -/

/-- A byte that completes no message keeps the invariant. -/
theorem takeByte_inv {b : Byte} {s t : State} (h : s.Inv) (hw : s.awaiting = false)
    (hb : takeByte b s = .taken t) : t.Inv := by
  by_cases ha : s.abort = true
  · rw [takeByte_abort ha] at hb; cases hb; exact h
  have ha : s.abort = false := by simpa using ha
  let u : State := { s with pos := s.pos + 1 }
  have hu : u.Inv := h
  rcases AutoState.idle_or_data_or_header s.state with hs | hs | hs
  · rw [takeByte_idle ha hs] at hb; exact idleByte_inv hu hs ha hw hb
  · rw [takeByte_data ha hs] at hb; exact dataByte_inv hu hs hb
  · rw [takeByte_header ha hs] at hb; exact headerByte_inv hu hs hb

/-- Settles O48, by what each kind of step leads to: a message, a `RESET` and an answer end in IDLE, a command leaves the
decoder alone, and a byte that completes no message is one of the step rules' own. -/
theorem everyStepKeepsTheInvariant : Obligations.EveryStepKeepsTheInvariant := by
  intro s t h hstep
  rcases step_cases hstep with ⟨rfl, -⟩ | ⟨rfl, hw, -⟩ | ⟨along, rest, -, rfl⟩ | ⟨rest, -, -, rfl⟩ |
    ⟨c, x, rest, i, new, -, -, -, rfl⟩ | ⟨b, rest, u, -, hw, hu, ⟨hb, rfl, -⟩ | ⟨i, e, -, ha, -, -, -, -, rfl⟩⟩
  · exact h
  · exact takeAnswer_inv h hw
  · exact resetEvent_inv _
  · exact endOfBuffer_inv (s := { s with input := rest }) h
  · exact h
  · exact takeByte_inv (s := { s with input := rest }) h hw hb
  · exact discharge_inv e (by simp [hu.abort, ha])

/-- Settles O47: right after reset the decoder is in IDLE and awaits nothing. -/
theorem invariantAtReset : Obligations.InvariantAtReset :=
  ⟨inv_of_idle rfl rfl rfl nofun, fun _ _ _ => inv_of_idle rfl rfl rfl nofun⟩

/-! ### The stops -/

/-- Under the invariant a byte never faults: ACC and PAY are accessed where they exist, and PAY is read where written. -/
theorem takeByte_ne_fault {s : State} (h : s.Inv) (b : Byte) (f : Fault) : takeByte b s ≠ .fault f := by
  intro hb
  rcases takeByte_cases b s with ⟨t, h', -⟩ | ⟨i, t, h', -⟩ | ⟨g, -, hstop⟩ | ⟨n, h', -⟩
  · simp [h'] at hb
  · simp [h'] at hb
  · rcases hstop with ⟨hs, hc⟩ | ⟨hs, hstop⟩
    · obtain ⟨hlt, -⟩ := h.header hs
      bv_omega
    · obtain ⟨bs, hpay, hlen⟩ := h.pay_write hs b
      obtain ⟨-, -, hlt, -⟩ := h.data hs
      rcases hstop with hge | ⟨hlast, hnone⟩
      · exact hge hlt
      · have hn : s.len.toNat = bs.length := by bv_omega
        rw [hpay, hn, Memory.range_ofBytes] at hnone
        cases hnone
  · simp [h'] at hb

/-- An instruction never faults, and only a SEND longer than `MAX_PAYLOAD` is refused (R118). -/
theorem exec_outcome (i : Instr) (s : State) :
    (∃ t, exec i s = .next t) ∨ ∃ n, exec i s = .refused (.payloadTooLarge n) ∧ s.maxPayload.toNat < n := by
  by_cases hw : i.isWire = true
  · by_cases ha : s.abort = true
    · exact .inl ⟨s, exec_wire_abort hw ha⟩
    have ha : s.abort = false := by simpa using ha
    cases hf : fitsPayload s.maxPayload i with
    | true =>
      obtain ⟨e, he⟩ := Option.isSome_iff_exists.mp ((eventOf_isSome i).trans hw)
      exact .inl ⟨_, exec_wire he ha hf⟩
    | false =>
      obtain ⟨o, n, st, p, -, hlt, hx⟩ := exec_wire_refused ha hf
      exact .inr ⟨p.length, hx, hlt⟩
  · obtain ⟨new, hnew⟩ := exec_command_fixedOutput (by simpa using hw)
    exact .inl ⟨_, hnew s⟩

/-- A selector that names no command has `cmd_kind` 0 (R72). -/
theorem decodePort_error {c : BitVec 3} {x : Operands} {e : DecodeError} (h : decodePort c x = .error e) :
    ∃ d, c = 0#2 ++ BitVec.ofBool d := by
  have hkind : ∀ c : BitVec 3, c ≠ selectorOf 1 false → c ≠ selectorOf 1 true → c ≠ selectorOf 2 false →
      c ≠ selectorOf 2 true → c ≠ selectorOf 3 false → c ≠ selectorOf 3 true →
      ∃ d, c = 0#2 ++ BitVec.ofBool d := by decide
  unfold decodePort at h
  split_ifs at h with h1 h2 h3 h4 h5 h6
  exact hkind c h1 h2 h3 h4 h5 h6

/-- Under the invariant a step gives a next state, or is refused for a SEND that is too long or a selector that names no
command. -/
theorem step_outcome {s : State} (h : s.Inv) :
    (∃ t, step s = .next t) ∨ (∃ n, step s = .refused (.payloadTooLarge n) ∧ s.maxPayload.toNat < n) ∨
    ∃ d, step s = .refused (.noSuchCommand (0#2 ++ BitVec.ofBool d)) := by
  rcases events_cases s.input with hi | ⟨along, rest, hi⟩ | ⟨rest, hi⟩ | ⟨b, rest, hi⟩ | ⟨c, x, rest, hi⟩
  case inr.inl => exact .inl ⟨_, step_taken (fetch_reset hi)⟩
  case inr.inr.inr.inr =>
    cases hd : decodePort c x with
    | error e =>
      obtain ⟨d, rfl⟩ := decodePort_error hd
      exact .inr (.inr ⟨d, step_refused (fetch_noSuchCommand hi hd)⟩)
    | ok i =>
      rw [step_run (fetch_command hi hd)]
      exact (exec_outcome i _).imp_right .inl
  all_goals
    cases hw : s.awaiting
    case true => exact .inl ⟨_, step_awaiting hw (by simp [hi]) (by simp [hi])⟩
  · exact .inl ⟨_, step_taken (fetch_noInput hi hw)⟩
  · exact .inl ⟨_, step_taken (fetch_eob hi hw)⟩
  · have hf := fetch_byte hi hw
    rcases takeByte_cases b { s with input := rest } with
      ⟨t, hb, -⟩ | ⟨i, t, hb, -, hu, -⟩ | ⟨f, hb, -⟩ | ⟨n, hb, hlt⟩
    · exact .inl ⟨t, step_taken (hf.trans hb)⟩
    · rw [step_run (hf.trans hb), ← show t.maxPayload = s.maxPayload from hu.maxPayload]
      exact (exec_outcome i t).imp_right .inl
    · exact absurd hb (takeByte_ne_fault (s := { s with input := rest }) h b f)
    · exact .inr (.inl ⟨n, step_refused (hf.trans hb), hlt⟩)

/-- Settles O49: `step_outcome`, read for each of the two ways to stop. -/
theorem invariantStatesNeverFault : Obligations.InvariantStatesNeverFault := by
  intro s h
  rcases step_outcome h with ⟨t, hs⟩ | ⟨n, hs, hlt⟩ | ⟨d, hs⟩ <;> rw [hs]
  · exact ⟨nofun, nofun⟩
  · exact ⟨nofun, fun r hr => by cases hr; exact .inl ⟨n, rfl, hlt⟩⟩
  · exact ⟨nofun, fun r hr => by cases hr; exact .inr ⟨d, rfl⟩⟩

/-! ### Registers that hold no value -/

/-- Settles O58: the two states fetch alike, and what they fetch is executed alike. -/
theorem valuelessRegistersAreNotRead : Obligations.ValuelessRegistersAreNotRead := by
  intro s t h
  have hf := fetch_sameValues h
  rw [step_eq_execute, step_eq_execute]
  cases hs : fetch s <;> cases ht : fetch t <;> rw [hs, ht] at hf
  case taken.taken u v => exact ⟨fun w hw => ⟨v, rfl, by cases hw; exact hf⟩, nofun, nofun⟩
  case run.run i u j v =>
    obtain ⟨rfl, huv⟩ := hf
    exact exec_sameValues huv i
  case fault.fault => cases hf; exact ⟨nofun, fun _ h => h, nofun⟩
  case refused.refused => cases hf; exact ⟨nofun, nofun, fun _ h => h⟩
  all_goals exact hf.elim

/-- So runs of any length do not read them either. -/
theorem runSteps_sameValues {s t : State} (h : s.SameValues t) (k : Nat) :
    (∀ u, runSteps k s = .next u → ∃ v, runSteps k t = .next v ∧ u.SameValues v) ∧
    (∀ r, runSteps k s = .refused r → runSteps k t = .refused r) := by
  induction k generalizing s t with
  | zero => exact ⟨fun u hu => ⟨t, rfl, by cases hu; exact h⟩, nofun⟩
  | succ k ih =>
    obtain ⟨hnext, -, hrefused⟩ := valuelessRegistersAreNotRead s t h
    rw [runSteps_succ k s]
    cases hs : step s with
    | next u =>
      obtain ⟨v, hv, huv⟩ := hnext u hs
      rw [runSteps_next hv]
      exact ih huv
    | fault f => exact ⟨nofun, nofun⟩
    | refused r =>
      rw [runSteps_succ k t, hrefused r hs]
      exact ⟨nofun, fun _ h => h⟩

/-- Contents that hold no value show in no output, `BUSY` or `PENDING`. -/
theorem State.SameValues.observed {s t : State} (h : s.SameValues t) :
    t.observed = s.observed ∧ t.encOut = s.encOut := by
  obtain ⟨g, a, o, n, b, l, rfl, -, -, -, -, -, hlen⟩ := h.registers
  refine ⟨?_, rfl⟩
  by_cases hs : s.state = .readData
  · cases hlen hs
    rfl
  · simp [State.observed, State.busy, State.pending, State.withRegisters, hs]

/-- Settles O59: in IDLE, where a run starts, none of these registers holds a value. -/
theorem resetContentsAreNeverObserved : Obligations.ResetContentsAreNeverObserved := by
  intro mode events answers tag acc obj inst start len k
  obtain ⟨hnext, hrefused⟩ := runSteps_sameValues
    (sameValues_idle (s := State.startOf mode events answers) rfl tag acc obj inst start len) k
  refine ⟨fun u hu => ?_, hrefused⟩
  obtain ⟨v, hv, huv⟩ := hnext u hu
  exact ⟨v, hv, huv.observed⟩

/-! ### Reset, the awaited answer, the status outputs and the command port -/

/-- Settles O41: the fields of `State.reset`, evaluated. -/
theorem resetState : Obligations.ResetState := by
  unfold Obligations.ResetState
  decide

/-- Settles O42: a waiting decoder's step is `takeAnswer`, and each look finds one of its four cases. -/
theorem answerComesBeforeInput : Obligations.AnswerComesBeforeInput := by
  intro s hw hr hc
  rw [step_awaiting hw hr hc]
  refine ⟨fun h => ?_, fun later h => ?_, fun later h => ?_, fun later h => ?_⟩
  · rw [takeAnswer_none h, ← hw]
  · rw [takeAnswer_notYet h, ← hw]
  · rw [takeAnswer_ok h]
  · rw [takeAnswer_fail h]

/-- `BUSY` and `PENDING` are 0 in IDLE (R19). -/
theorem status_of_idle {s : State} (h : s.state = .idle) : s.busy = false ∧ s.pending = 0 := by
  simp [State.busy, State.pending, h]

/-- In READ_DATA `PENDING` counts the payload bytes still to come, without borrow: CNT is below LEN (R85). -/
theorem pending_toNat {s : State} (h : s.Inv) (hs : s.state = .readData) :
    s.cnt.toNat < s.len.toNat ∧ s.pending.toNat = s.len.toNat - s.cnt.toNat := by
  obtain ⟨-, -, hlt, -⟩ := h.data hs
  rw [State.pending, if_pos hs]
  exact ⟨hlt, BitVec.toNat_sub_of_le (BitVec.le_of_lt hlt)⟩

/-- Settles O43: both are read off STATE, and a LEGACY `EOB` ends in IDLE. -/
theorem statusOutputs : Obligations.StatusOutputs := by
  refine ⟨fun s => by simp [State.busy], fun s hs => if_neg hs, fun s h hs => ?_, fun s t rest hm hw hi h => ?_⟩
  · obtain ⟨hlt, hp⟩ := pending_toNat h hs
    omega
  · rw [step_taken (fetch_eob hi hw), endOfBuffer, hm] at h
    cases h
    exact status_of_idle rfl

/-- Settles O45: such a command is what the step fetches, in every STATE. -/
theorem stepRunsTheDecodedCommand : Obligations.StepRunsTheDecodedCommand :=
  fun _ _ _ _ _ hi hd => step_run (fetch_command hi hd)

end Sys2Proof.Machine

/-! PROOFS. Memory (20_memory.md): no run from reset accesses ACC or PAY where it does not exist, or reads a cell of PAY
that holds no value (U13, R40), and every step keeps PAY's canonical form (R54). -/

namespace Sys2Proof.Machine

/-! ### Runs without a fault -/

/-- A run does not fault from a state with a property that every step keeps and that excludes a fault in the next step. -/
theorem runSteps_ne_fault {P : State → Prop} (hstep : ∀ s t, P s → step s = .next t → P t)
    (hsafe : ∀ s f, P s → step s ≠ .fault f) {s : State} (hs : P s) (k : Nat) (f : Fault) :
    runSteps k s ≠ .fault f := by
  induction k generalizing s with
  | zero => nofun
  | succ k ih =>
    rw [runSteps_succ]
    cases h : step s with
    | next t => exact ih (hstep s t hs h)
    | fault g => exact absurd h (hsafe s g hs)
    | refused r => nofun

/-- Settles O50: the invariant holds at the start of a run, every step keeps it, and it excludes every fault. -/
theorem runsFromResetNeverFault : Obligations.RunsFromResetNeverFault := by
  intro mode events answers k f
  obtain ⟨-, hstart⟩ := invariantAtReset
  exact runSteps_ne_fault everyStepKeepsTheInvariant (fun s f h => (invariantStatesNeverFault s h).1 f)
    (hstart mode events answers) k f

/-! ### The canonical form of PAY -/

/-- The end of a buffer leaves PAY as it is or ends it (R124, R125). -/
theorem endOfBuffer_pay (s : State) : (endOfBuffer s).pay = s.pay ∨ (endOfBuffer s).pay = [] := by
  unfold endOfBuffer
  split
  · exact .inr rfl
  · exact .inl rfl

/-- All that a step can do to PAY: leave it, end it, or store one byte at CNT (R54). -/
theorem step_pay {s t : State} (h : step s = .next t) :
    t.pay = s.pay ∨ t.pay = [] ∨ ∃ b, t.pay = s.pay.write s.cnt.toNat b := by
  rcases step_cases h with ⟨rfl, -⟩ | ⟨rfl, -⟩ | ⟨along, rest, -, rfl⟩ | ⟨rest, -, -, rfl⟩ |
    ⟨c, x, rest, i, new, -, -, -, rfl⟩ | ⟨b, rest, u, -, -, -, ⟨-, rfl, -, hpay⟩ | ⟨i, e, -, -, -, -, -, -, rfl⟩⟩
  · exact .inl rfl
  · exact .inl (takeAnswer_pay s)
  · exact .inr (.inl rfl)
  · exact (endOfBuffer_pay { s with input := rest }).imp_right .inl
  · exact .inl rfl
  · exact hpay.imp_right fun hpay => hpay.imp_right fun hwrite => ⟨b, hwrite⟩
  · exact .inr (.inl (discharge_pay e _))

/-- Settles O51: of the three things a step can do to PAY, only a store adds a cell, and it keeps the addresses rising. -/
theorem everyStepKeepsPayCanonical : Obligations.EveryStepKeepsPayCanonical := by
  intro s t hwf h
  rcases step_pay h with hpay | hpay | ⟨b, hpay⟩ <;> rw [hpay]
  · exact hwf
  · rfl
  · exact Memory.wf_write s.pay s.cnt.toNat b hwf

end Sys2Proof.Machine

/-! PROOFS. Encoding (30_encoding.md): encoder and decoder of instructions undo each other (R61 to R63, R69, R72), which
bytes and selectors are rejected (R66, R67, R72), and message lengths (R64). -/

namespace Sys2Proof

/-! ### The decoder by the tag -/

@[simp] theorem decodeMessage_tagRequest (bs : List Byte) : decodeMessage (tagRequest :: bs) = decodeRequest bs := rfl
@[simp] theorem decodeMessage_tagSend (bs : List Byte) : decodeMessage (tagSend :: bs) = decodeSend bs := rfl
@[simp] theorem decodeMessage_tagCommand (bs : List Byte) : decodeMessage (tagCommand :: bs) = decodeCommand bs := rfl

/-- A byte is one of the three tags, or none (R66). -/
theorem tag_cases (b : Byte) : b = tagRequest ∨ b = tagSend ∨ b = tagCommand ∨ isTag b = false := by
  cases h : isTag b with
  | false => exact .inr (.inr (.inr rfl))
  | true => simpa [isTag, or_assoc] using h

/-- A byte that is no tag is rejected by name, whatever follows it (R66, R67). -/
theorem decodeMessage_illegalTag {b : Byte} (h : isTag b = false) (bs : List Byte) :
    decodeMessage (b :: bs) = .error (.invalidTag b) := by
  have hne : b ≠ tagRequest ∧ b ≠ tagSend ∧ b ≠ tagCommand := by simpa [isTag, and_assoc] using h
  obtain ⟨h1, h2, h3⟩ := hne
  simp [decodeMessage, h1, h2, h3]

/-! ### Decoding what was encoded -/

/-- The command port's decoder reads back each command from its selector and operands (R72). -/
theorem decodePort_encode {i : Instr} {c : BitVec 3} {x : Operands} (h : encode i = .port c x) :
    decodePort c x = .ok i := by
  cases i <;> cases h <;> rfl

/-- The wire decoder reads a REQUEST's bytes (R61). -/
theorem decodeMessage_requestBytes (o i s l : Word) (rest : List Byte) :
    decodeMessage (requestBytes o i s l ++ rest) = .ok (.request o i s l, rest) := by
  simp [requestBytes, headerBytes, decodeRequest]

/-- The wire decoder reads a SEND's bytes, and takes as payload as many bytes as the length field says (R61, R63). -/
theorem decodeMessage_sendBytes (o i s : Word) {p : List Byte} (rest : List Byte) (hp : p.length < 2 ^ 32) :
    decodeMessage (sendBytes o i s p ++ rest) = .ok (.send o i s p, rest) := by
  have hlen : (BitVec.ofNat 32 p.length).toNat = p.length := by
    rw [BitVec.toNat_ofNat, Nat.mod_eq_of_lt hp]
  simp only [sendBytes, headerBytes, List.cons_append, List.append_assoc, decodeMessage_tagSend, decodeSend,
    takeFour_be32, hlen]
  simp

/-- The wire decoder reads a COMMAND's bytes (R62). -/
theorem decodeMessage_commandBytes (c i : Word) (rest : List Byte) :
    decodeMessage (commandBytes c i ++ rest) = .ok (.command c i, rest) := by
  simp [commandBytes, decodeCommand]

/-- The wire decoder reads a well-formed message back from its bytes and leaves the bytes behind them (R69). -/
theorem decodeMessage_encode {i : Instr} {bs : List Byte} (hwf : i.wellFormed = true) (h : encode i = .wire bs)
    (rest : List Byte) : decodeMessage (bs ++ rest) = .ok (i, rest) := by
  cases i with
  | request => cases h; exact decodeMessage_requestBytes ..
  | send => cases h; exact decodeMessage_sendBytes _ _ _ _ (by simpa [Instr.wellFormed] using hwf)
  | command => cases h; exact decodeMessage_commandBytes ..
  | _ => cases h

/-- Settles O5, by the unit that the instruction is presented to. -/
theorem decodeEncodeRoundTrip : Obligations.DecodeEncodeRoundTrip := by
  intro i hwf
  refine ⟨?_, fun bs rest h => decodeMessage_encode hwf h rest⟩
  cases h : encode i with
  | wire bs => simpa [decode] using decodeMessage_encode hwf h []
  | port c x => simp [decode, decodePort_encode h]

/-! ### What decodes is an encoding -/

/-- Bytes that decode after tag 1 are four fields (R61). -/
theorem decodeRequest_ok {bs rest : List Byte} {i : Instr} (h : decodeRequest bs = .ok (i, rest)) :
    ∃ o n s l, i = .request o n s l ∧ tagRequest :: bs = requestBytes o n s l ++ rest := by
  unfold decodeRequest at h
  split at h
  · cases h
  next o n s l r hf =>
    cases h
    exact ⟨o, n, s, l, rfl, by simp [takeFour_some hf, requestBytes, headerBytes]⟩

/-- Bytes that decode after tag 2 are four fields and as many payload bytes as the last of them says (R61, R63). -/
theorem decodeSend_ok {bs rest : List Byte} {i : Instr} (h : decodeSend bs = .ok (i, rest)) :
    ∃ o n s p, i = .send o n s p ∧ p.length < 2 ^ 32 ∧ tagSend :: bs = sendBytes o n s p ++ rest := by
  unfold decodeSend at h
  split at h
  · cases h
  next o n s l r hf =>
    split at h
    · cases h
    next hlen =>
      cases h
      have hp : (r.take l.toNat).length = l.toNat := List.length_take_of_le (Nat.le_of_not_lt hlen)
      refine ⟨o, n, s, _, rfl, hp.trans_lt l.isLt, ?_⟩
      simp only [sendBytes, headerBytes, hp, BitVec.ofNat_toNat, BitVec.setWidth_eq]
      simp [takeFour_some hf]

/-- Bytes that decode after tag 3 are two fields (R62). -/
theorem decodeCommand_ok {bs rest : List Byte} {i : Instr} (h : decodeCommand bs = .ok (i, rest)) :
    ∃ c n, i = .command c n ∧ tagCommand :: bs = commandBytes c n ++ rest := by
  unfold decodeCommand at h
  split at h
  · cases h
  next c r hc =>
    split at h
    · cases h
    next n r' hn =>
      cases h
      exact ⟨c, n, rfl, by simp [takeWord_some hc, takeWord_some hn, commandBytes]⟩

/-- Settles O6, by the tag: each message's decoder reads its fields in the order in which they are laid out. -/
theorem decodedBytesAreTheEncoding : Obligations.DecodedBytesAreTheEncoding := by
  intro bs i rest h
  cases bs with
  | nil => cases h
  | cons t bs =>
    rcases tag_cases t with rfl | rfl | rfl | ht
    · obtain ⟨o, n, s, l, rfl, hbs⟩ := decodeRequest_ok h
      exact ⟨rfl, _, rfl, hbs⟩
    · obtain ⟨o, n, s, p, rfl, hp, hbs⟩ := decodeSend_ok h
      exact ⟨decide_eq_true hp, _, rfl, hbs⟩
    · obtain ⟨c, n, rfl, hbs⟩ := decodeCommand_ok h
      exact ⟨rfl, _, rfl, hbs⟩
    · rw [decodeMessage_illegalTag ht] at h; cases h

/-! ### Which bytes are rejected -/

/-- Bytes behind a legal tag are not rejected for their tag (R66). -/
theorem decodeMessage_legalTag {b : Byte} (h : isTag b = true) (bs : List Byte) (c : Byte) :
    decodeMessage (b :: bs) ≠ .error (.invalidTag c) := by
  rcases tag_cases b with rfl | rfl | rfl | hb
  · rw [decodeMessage_tagRequest, decodeRequest]; split <;> nofun
  · rw [decodeMessage_tagSend, decodeSend]; split
    · nofun
    · split <;> nofun
  · rw [decodeMessage_tagCommand, decodeCommand]; split
    · nofun
    · split <;> nofun
  · simp [hb] at h

/-- Settles O9: the decoder compares the first byte with the three tags and with nothing else. -/
theorem onlyIllegalTagsAreRejectedByTag : Obligations.OnlyIllegalTagsAreRejectedByTag := by
  intro b c bs
  have hlegal : isTag b = false ↔ b ≠ 1 ∧ b ≠ 2 ∧ b ≠ 3 := by
    simp [isTag, tagRequest, tagSend, tagCommand, and_assoc]
  rw [← hlegal]
  cases hb : isTag b with
  | true => simpa using decodeMessage_legalTag hb bs c
  | false => simp [decodeMessage_illegalTag hb, eq_comm]

/-! ### Lengths -/

/-- The header has 17 bytes (R61). -/
@[simp] theorem headerBytes_length (t : Byte) (o i s l : Word) : (headerBytes t o i s l).length = 17 := rfl

/-- Settles O8: the encodings' lengths are counted, and a length field is below 2^32. -/
theorem messageLengths : Obligations.MessageLengths := by
  refine ⟨fun o i s l => ⟨rfl, rfl⟩, fun o i s p => ⟨by simp [sendBytes], rfl⟩, fun c i n => ⟨rfl, rfl⟩,
    fun t l => ?_, rfl, by decide⟩
  have hl := l.isLt
  unfold msglen
  split_ifs <;> omega

/-! ### Words of the spec -/

/-- Settles O7: each word is decoded by evaluation. -/
theorem specWordsDecode : Obligations.SpecWordsDecode := by
  unfold Obligations.SpecWordsDecode
  decide

/-! ### Selectors that name no command -/

/-- A selector whose `cmd_kind` is 0 names no command, whatever its dispatch bit (R72). -/
theorem decodePort_kindZero (d : Bool) (x : Operands) :
    decodePort (0#2 ++ BitVec.ofBool d) x = .error (.noSuchCommand (0#2 ++ BitVec.ofBool d)) := by
  cases d <;> rfl

/-- Settles O10: such a selector does not decode, and a command is fetched in every state. -/
theorem commandKindZeroRefused : Obligations.CommandKindZeroRefused :=
  fun _ x _ d hi => Machine.step_refused (Machine.fetch_noSuchCommand hi (decodePort_kindZero d x))

end Sys2Proof

/-! PROOFS. The byte-wise decoder refines the parse (R113, R120, R134, R135). The simulation: what the decoder still owes
is the parse of the bytes of the message in progress (`fetchedBytes`) and of the bytes to come. -/

namespace Sys2Proof

/-! ### Bytes that end inside a message -/

/-- Fewer than sixteen bytes hold no four fields. -/
theorem takeFour_short {bs : List Byte} (h : bs.length < 16) : takeFour bs = none := by
  cases hf : takeFour bs with
  | none => rfl
  | some r =>
    obtain ⟨o, i, s, l, rest⟩ := r
    have hlen := congrArg List.length (takeFour_some hf)
    simp at hlen
    omega

/-- Bytes that end inside the header of their tag are no message (R61, R62). -/
theorem decodeMessage_shortHeader {b : Byte} {bs : List Byte} (hb : isTag b = true) (h : bs.length + 1 < msglen b 0) :
    decodeMessage (b :: bs) = .error .headerIncomplete := by
  rcases tag_cases b with rfl | rfl | rfl | hb'
  · have h16 : bs.length < 16 := by change _ < 17 at h; omega
    simp [decodeRequest, takeFour_short h16]
  · have h16 : bs.length < 16 := by change _ < 17 at h; omega
    simp [decodeSend, takeFour_short h16]
  · change _ < 9 at h
    rw [decodeMessage_tagCommand, decodeCommand]
    split
    · rfl
    next hc =>
      split
      · rfl
      next hn =>
        have hlen := congrArg List.length (takeWord_some hc)
        rw [takeWord_some hn] at hlen
        simp at hlen
        omega
  · simp [hb] at hb'

/-- A SEND's header and fewer payload bytes than it declares are no message (R63). -/
theorem decodeMessage_shortPayload (o i s : Word) {l : Word} {p : List Byte} (h : p.length < l.toNat) :
    decodeMessage (headerBytes tagSend o i s l ++ p) = .error .payloadIncomplete := by
  simp [headerBytes, decodeSend, h]

/-- The header of every message has the 9 bytes of a COMMAND's, and 17 if it is no COMMAND (R61, R62). -/
theorem msglen_ge (b : Byte) : 9 ≤ msglen b 0 ∧ (b ≠ tagCommand → 17 ≤ msglen b 0) := by
  unfold msglen
  split_ifs <;> simp_all

/-- A message has a byte. -/
theorem encode_wire_length {i : Instr} {p : List Byte} (hwf : i.wellFormed = true) (h : encode i = .wire p) :
    0 < p.length := by
  cases p with
  | nil => cases decodeMessage_encode hwf h []
  | cons => simp

namespace Machine

/-! ### The parse -/

/-- Any number of cuts that is at least the number of bytes is enough: each cut takes a byte. -/
theorem parseOutputs_enough {m n : Nat} {bs : List Byte} (hm : bs.length ≤ m) (hn : bs.length ≤ n) :
    parseOutputs m bs = parseOutputs n bs := by
  induction m generalizing n bs with
  | zero =>
    obtain rfl : bs = [] := by simpa using hm
    cases n <;> rfl
  | succ m ih =>
    cases n with
    | zero =>
      obtain rfl : bs = [] := by simpa using hn
      rfl
    | succ n =>
      cases hd : decodeMessage bs with
      | ok r =>
        obtain ⟨i, rest⟩ := r
        obtain ⟨hwf, p, hp, rfl⟩ := decodedBytesAreTheEncoding _ _ _ hd
        have hpos := encode_wire_length hwf hp
        simp only [List.length_append] at hm hn
        simp only [parseOutputs, hd, ih (n := n) (bs := rest) (by omega) (by omega)]
      | error e =>
        cases e <;> simp only [parseOutputs, hd]
        rw [ih (n := n) (by simp; omega) (by simp; omega)]

/-- What the bytes amount to, cut as often as they can be. -/
def parse (bs : List Byte) : List Output := parseOutputs bs.length bs

/-- A message in front amounts to its event. -/
theorem parse_message {i : Instr} {e : HandlerEvent} {p : List Byte} (hwf : i.wellFormed = true)
    (hp : encode i = .wire p) (he : eventOf i = some e) (bs : List Byte) : parse (p ++ bs) = .event e :: parse bs := by
  have hpos := encode_wire_length hwf hp
  unfold parse
  rw [parseOutputs_enough (bs := p ++ bs) (n := (p.length - 1 + bs.length) + 1) le_rfl (by simp; omega), parseOutputs,
    decodeMessage_encode hwf hp]
  simp [he, parseOutputs_enough (bs := bs) (m := p.length - 1 + bs.length) (by omega) le_rfl]

/-- A byte in front that is no tag amounts to its report. -/
theorem parse_illegalTag {b : Byte} (h : isTag b = false) (bs : List Byte) :
    parse (b :: bs) = .report (.invalidTag b) :: parse bs := by
  simp [parse, parseOutputs, decodeMessage_illegalTag h]

/-- Bytes that end inside a message amount to nothing. -/
theorem parse_incomplete {bs : List Byte} {e : DecodeError} (h : decodeMessage bs = .error e)
    (he : ∀ b, e ≠ .invalidTag b) : parse bs = [] := by
  unfold parse
  cases bs.length with
  | zero => rfl
  | succ n =>
    cases e with
    | invalidTag b => exact absurd rfl (he b)
    | _ => simp only [parseOutputs, h]

/-! ### The message in progress -/

/-- What the registers say of the message in progress (R12, R14 to R16, R20): the part of `State.Inv` that does not speak
of IDLE, of `MAX_PAYLOAD`, or of PAY outside READ_DATA. In IDLE it says nothing. -/
structure Underway (s : State) : Prop where
  header : s.state.isHeader = true →
    s.cnt < 4 ∧ isTag s.tag = true ∧ (s.state = .readStart ∨ s.state = .readLength → s.tag ≠ tagCommand)
  data : s.state = .readData →
    s.tag = tagSend ∧ s.cnt < s.len ∧ s.pay.length = s.cnt.toNat ∧ Memory.ofBytes 0 (s.pay.map Prod.snd) = s.pay

/-- The invariant says it of every state that it holds in. -/
theorem State.Inv.underway {s : State} (h : s.Inv) : Underway s where
  header hs := by
    obtain ⟨hc, htag, hnotCommand, -⟩ := h.header hs
    exact ⟨hc, htag, hnotCommand⟩
  data hs := by
    obtain ⟨htag, -, hlt, -⟩ := h.data hs
    obtain ⟨-, -, -, hdata, -⟩ := h
    obtain ⟨-, -, -, -, hlen, hpay⟩ := hdata hs
    exact ⟨htag, hlt, hlen, hpay⟩

/-- In IDLE no message is in progress. -/
theorem underway_of_idle {s : State} (hs : s.state = .idle) : Underway s :=
  ⟨by simp [hs, AutoState.isHeader], by simp [hs]⟩

/-- A message in its header. -/
theorem underway_of_header {s : State} (hs : s.state.isHeader = true) (hc : s.cnt < 4) (ht : isTag s.tag = true)
    (hn : s.state = .readStart ∨ s.state = .readLength → s.tag ≠ tagCommand) : Underway s :=
  ⟨fun _ => ⟨hc, ht, hn⟩, fun h => by simp [h, AutoState.isHeader] at hs⟩

/-- A SEND in its payload. -/
theorem underway_of_data {s : State} (hs : s.state = .readData) (ht : s.tag = tagSend) (hc : s.cnt < s.len)
    (hlen : s.pay.length = s.cnt.toNat) (hpay : Memory.ofBytes 0 (s.pay.map Prod.snd) = s.pay) : Underway s :=
  ⟨by simp [hs, AutoState.isHeader], fun _ => ⟨ht, hc, hlen, hpay⟩⟩

/-- The bytes of a message in progress amount to nothing. -/
theorem parse_fetchedBytes {s : State} (h : Underway s) : parse (fetchedBytes s) = [] := by
  rcases AutoState.idle_or_data_or_header s.state with hs | hs | hs
  · simp only [fetchedBytes, hs]; rfl
  · obtain ⟨htag, hlt, hlen, -⟩ := h.data hs
    have hp : (s.pay.map Prod.snd).length < s.len.toNat := by simpa [hlen, BitVec.lt_def] using hlt
    simp only [fetchedBytes, hs, htag]
    exact parse_incomplete (decodeMessage_shortPayload _ _ _ hp) nofun
  · obtain ⟨hc, htag, hnotCommand⟩ := h.header hs
    obtain ⟨h9, h17⟩ := msglen_ge s.tag
    have hc : s.cnt.toNat < 4 := hc
    cases hst : s.state
    case idle | readData => simp [hst, AutoState.isHeader] at hs
    case readObjectId | readInstanceNo =>
      simp only [fetchedBytes, hst]
      exact parse_incomplete (decodeMessage_shortHeader htag (by simp; omega)) nofun
    case readStart | readLength =>
      have := h17 (hnotCommand (by simp [hst]))
      simp only [fetchedBytes, hst]
      exact parse_incomplete (decodeMessage_shortHeader htag (by simp; omega)) nofun

/-! ### A byte that stands in a message -/

/-- The fetch accounts for these bytes: they are those of the message then in progress, or the encoding of the instruction
then run. -/
def Fetch.Accounts (bs : List Byte) : Fetch → Prop
  | .taken t => fetchedBytes t = bs ∧ Underway t
  | .run i _ => i.wellFormed = true ∧ encode i = .wire bs
  | .fault _ | .refused _ => False

/-- No length is above the default of `MAX_PAYLOAD` (R4, R118). -/
theorem not_defaultMaxPayload_lt (v : Word) : ¬ Config.defaultMaxPayload < v := by
  unfold Config.defaultMaxPayload; bv_omega

/-- Every well-formed instruction fits the default of `MAX_PAYLOAD` (R4, R118). -/
theorem fitsPayload_default {i : Instr} (h : i.wellFormed = true) :
    fitsPayload Config.defaultMaxPayload i = true := by
  cases i with
  | send o n st p =>
    have hlen : p.length < 2 ^ 32 := of_decide_eq_true h
    have hmax : Config.defaultMaxPayload.toNat = 2 ^ 32 - 1 := rfl
    exact decide_eq_true (by omega)
  | _ => rfl

/-- The bytes of a field are ACC's. -/
theorem Acc.be32_toWord (a : Acc) : be32 a.toWord = a.bytes := by
  rw [← Acc.bytes_ofWord, Acc.ofWord_toWord]

/-- A byte stored in ACC stands behind those stored before. -/
theorem Acc.set_take {a a' : Acc} {k : Nat} {b : Byte} (h : a.set k b = some a') :
    a'.bytes.take (k + 1) = a.bytes.take k ++ [b] := by
  match k, h with
  | 0, h | 1, h | 2, h | 3, h => cases h; rfl

/-- The bytes of a header up to and with the field that STATE stands for. -/
def throughField (s : State) : List Byte :=
  match s.state with
  | .idle | .readData => []
  | .readObjectId => s.tag :: be32 s.obj
  | .readInstanceNo => s.tag :: (be32 s.obj ++ be32 s.inst)
  | .readStart => s.tag :: (be32 s.obj ++ be32 s.inst ++ be32 s.start)
  | .readLength => headerBytes s.tag s.obj s.inst s.start s.len

/-- Completing a field accounts for the header up to and with it. -/
theorem completeField_accounts {s : State} (h : Underway s) (hs : s.state.isHeader = true) (hc : s.cnt = 0)
    (hm : s.maxPayload = Config.defaultMaxPayload) : (completeField s).Accounts (throughField s) := by
  obtain ⟨hlt, htag, hnotCommand⟩ := h.header hs
  cases hst : s.state
  case idle | readData => simp [hst, AutoState.isHeader] at hs
  case readObjectId =>
    rw [completeField_objectId hst]
    exact ⟨by simp [fetchedBytes, throughField, hst, hc], underway_of_header rfl hlt htag (by simp)⟩
  case readInstanceNo =>
    by_cases ht : s.tag = tagCommand
    · rw [completeField_command hst ht]
      exact ⟨rfl, by simp [throughField, hst, ht, encode, commandBytes]⟩
    · rw [completeField_instanceNo hst ht]
      exact ⟨by simp [fetchedBytes, throughField, hst, hc], underway_of_header rfl hlt htag fun _ => ht⟩
  case readStart =>
    rw [completeField_start hst]
    exact ⟨by simp [fetchedBytes, throughField, hst, hc],
      underway_of_header rfl hlt htag fun _ => hnotCommand (.inl hst)⟩
  case readLength =>
    by_cases ht : s.tag = tagRequest
    · rw [completeField_request hst ht]
      exact ⟨rfl, by simp [throughField, hst, ht, encode, requestBytes]⟩
    have hsend : s.tag = tagSend := by simpa [isTag, ht, hnotCommand (.inr hst)] using htag
    by_cases hl : s.len = 0
    · rw [completeField_emptySend hst ht hl]
      exact ⟨rfl, by simp [throughField, hst, hsend, hl, encode, sendBytes]⟩
    · rw [completeField_payload hst ht hl (hm ▸ not_defaultMaxPayload_lt s.len)]
      exact ⟨by simp [fetchedBytes, throughField, hst],
        underway_of_data rfl hsend (by simpa [BitVec.pos_iff_ne_zero] using hl) rfl rfl⟩

/-- In a header state no field register matters to what is said of the message in progress. -/
theorem setField_underway {s : State} (f : Nat) (v : Word) (h : Underway s) (hs : s.state.isHeader = true) :
    Underway (s.setField f v) := by
  obtain ⟨hc, htag, hnotCommand⟩ := h.header hs
  obtain ⟨-, -, -, hst, hcnt⟩ := setField_outside s f v
  have ht := setField_tag s f v
  exact underway_of_header (by rwa [hst]) (by rwa [hcnt]) (by rwa [ht]) (by rwa [hst, ht])

/-- A byte of a header field joins the bytes of the message in progress. -/
theorem headerByte_accounts {s : State} (h : Underway s) (hs : s.state.isHeader = true)
    (hm : s.maxPayload = Config.defaultMaxPayload) (b : Byte) :
    (headerByte b s).Accounts (fetchedBytes s ++ [b]) := by
  obtain ⟨hc, htag, hnotCommand⟩ := h.header hs
  have hlt : s.cnt.toNat < 4 := hc
  cases hset : s.acc.set s.cnt.toNat b with
  | none => exact absurd (Acc.set_eq_none.mp hset) (by omega)
  | some acc =>
    have htake := Acc.set_take hset
    by_cases h4 : s.cnt + 1 = 4
    · have h3 : s.cnt.toNat = 3 := by bv_omega
      have hbytes : be32 acc.toWord = s.acc.bytes.take s.cnt.toNat ++ [b] := by
        rw [Acc.be32_toWord, ← htake, h3]; rfl
      have hr : Underway { s with acc := acc, cnt := 0 } :=
        underway_of_header hs (show (0 : Word) < 4 by decide) htag hnotCommand
      obtain ⟨hout, -, -, hst, hcnt⟩ :=
        setField_outside { s with acc := acc, cnt := 0 } (s.state.number - 1) acc.toWord
      have hfield : throughField (State.setField { s with acc := acc, cnt := 0 } (s.state.number - 1) acc.toWord) =
          fetchedBytes s ++ [b] := by
        cases hst : s.state
        case idle | readData => simp [hst, AutoState.isHeader] at hs
        all_goals simp [throughField, fetchedBytes, headerBytes, AutoState.number, hst, hbytes]
      rw [headerByte_fourth hset h4, ← hfield]
      exact completeField_accounts (setField_underway _ _ hr hs) (by rwa [hst]) hcnt (hout.maxPayload.trans hm)
    · have hcnt : (s.cnt + 1).toNat = s.cnt.toNat + 1 := by bv_omega
      have hnext : s.cnt + 1 < 4 := by bv_omega
      rw [← hcnt] at htake
      rw [headerByte_more hset h4]
      refine ⟨?_, underway_of_header hs hnext htag hnotCommand⟩
      cases hst : s.state
      case idle | readData => simp [hst, AutoState.isHeader] at hs
      all_goals simp only [fetchedBytes, hst, htake, List.cons_append, List.append_assoc]

/-- A byte of the payload joins the bytes of the message in progress. -/
theorem dataByte_accounts {s : State} (h : Underway s) (hs : s.state = .readData) (b : Byte) :
    (dataByte b s).Accounts (fetchedBytes s ++ [b]) := by
  obtain ⟨htag, hlt, hcnt, hpay⟩ := h.data hs
  let bs := s.pay.map Prod.snd ++ [b]
  have hlen : bs.length = s.cnt.toNat + 1 := by simp [bs, hcnt]
  have hwrite : s.pay.write s.cnt.toNat b = Memory.ofBytes 0 bs := by
    have happend := Memory.write_ofBytes 0 (s.pay.map Prod.snd) b
    rwa [Nat.zero_add, List.length_map, hcnt, hpay] at happend
  by_cases he : s.cnt + 1 = s.len
  · have hn : s.len.toNat = bs.length := by bv_omega
    have hl : BitVec.ofNat 32 bs.length = s.len := by rw [← hn]; simp
    have hr : Memory.range (s.pay.write s.cnt.toNat b) 0 s.len.toNat = some bs := by
      rw [hwrite, hn, Memory.range_ofBytes]
    rw [dataByte_last hlt he hr]
    refine ⟨decide_eq_true (hn ▸ s.len.isLt), ?_⟩
    simp only [encode, sendBytes, hl, fetchedBytes, hs, htag, List.append_assoc, bs]
  · rw [dataByte_more hlt he, hwrite]
    refine ⟨by simp [fetchedBytes, hs, bs], underway_of_data hs htag ?_ ?_ ?_⟩
    · show s.cnt + 1 < s.len
      bv_omega
    · show (Memory.ofBytes 0 bs).length = (s.cnt + 1).toNat
      rw [Memory.ofBytes_length]
      bv_omega
    · rw [Memory.ofBytes_bytes]

/-- So does any byte that is not one out of place in IDLE. -/
theorem takeByte_accounts {s : State} (h : Underway s) (ha : s.abort = false) {b : Byte}
    (hb : s.state = .idle → isTag b = true) (hm : s.maxPayload = Config.defaultMaxPayload) :
    (takeByte b s).Accounts (fetchedBytes s ++ [b]) := by
  let u : State := { s with pos := s.pos + 1 }
  have hu : Underway u := ⟨h.header, h.data⟩
  rcases AutoState.idle_or_data_or_header s.state with hs | hs | hs
  · rw [takeByte_idle ha hs, idleByte, if_pos (hb hs)]
    exact ⟨by simp [fetchedBytes, hs], underway_of_header rfl (show (0 : Word) < 4 by decide) (hb hs) (by simp)⟩
  · rw [takeByte_data ha hs]; exact dataByte_accounts hu hs b
  · rw [takeByte_header ha hs]; exact headerByte_accounts hu hs hm b

/-! ### The simulation -/

/-- The decoder is taking these bytes, with nothing discarded or awaited, every length legal, and an `ok` to come for each
event. -/
structure Decoding (bs : List Byte) (rest : List Event) (s : State) : Prop where
  underway : Underway s
  abort : s.abort = false
  awaiting : s.awaiting = false
  maxPayload : s.maxPayload = Config.defaultMaxPayload
  answersOk : ∀ a ∈ s.answers, a = .ok
  enough : bs.length ≤ s.answers.length
  input : s.input = bytesIn bs ++ rest

/-- A step that takes a byte and no answer goes on so. -/
theorem Decoding.next {s t : State} {b : Byte} {bs : List Byte} {rest : List Event} (h : Decoding (b :: bs) rest s)
    (hu : Underway t) (ht : SameOutside { s with input := bytesIn bs ++ rest, pos := s.pos + 1 } t) :
    Decoding bs rest t where
  underway := hu
  abort := ht.abort.trans h.abort
  awaiting := ht.awaiting.trans h.awaiting
  maxPayload := ht.maxPayload.trans h.maxPayload
  answersOk := by rw [ht.answers]; exact h.answersOk
  enough := by rw [ht.answers]; exact Nat.le_of_succ_le h.enough
  input := ht.input

/-- There is an `ok` for the event of the next byte, if it completes a message. -/
theorem Decoding.answer {s : State} {b : Byte} {bs : List Byte} {rest : List Event} (h : Decoding (b :: bs) rest s) :
    ∃ later, s.answers = .ok :: later ∧ (∀ a ∈ later, a = .ok) ∧ bs.length ≤ later.length := by
  have hok := h.answersOk
  have hlen := h.enough
  cases hl : s.answers with
  | nil => simp [hl] at hlen
  | cons a later =>
    rw [hl] at hok hlen
    obtain ⟨rfl, hlater⟩ := List.forall_mem_cons.mp hok
    exact ⟨later, rfl, hlater, by simpa using hlen⟩

/-- A step takes the byte `b`, and what it presents is what the decoder then owes less. -/
def Pays (b : Byte) (bs : List Byte) (rest : List Event) (s : State) : Prop :=
  ∃ t new, step s = .next t ∧ Decoding bs rest t ∧ t.encOut = s.encOut ∧ t.outputs = s.outputs ++ new ∧
    parse (fetchedBytes s ++ b :: bs) = new ++ parse (fetchedBytes t ++ bs)

/-- A byte in IDLE that is no tag is reported (R113). -/
theorem Decoding.pays_illegalTag {s : State} {b : Byte} {bs : List Byte} {rest : List Event}
    (h : Decoding (b :: bs) rest s) (hs : s.state = .idle) (hb : isTag b = false) : Pays b bs rest s := by
  have hstep : step s = .next (raise (.invalidTag b) { s with input := bytesIn bs ++ rest, pos := s.pos + 1 }) := by
    apply step_taken
    rw [fetch_idle (rest := bytesIn bs ++ rest) ⟨hs, h.abort, h.awaiting⟩ h.input]
    simp [idleByte, hb]
  refine ⟨_, [.report (.invalidTag b)], hstep,
    h.next (underway_of_idle hs) ⟨rfl, rfl, rfl, rfl, rfl, rfl, rfl, rfl, rfl⟩, rfl, rfl, ?_⟩
  simp [fetchedBytes, raise, hs, parse_illegalTag hb]

/-- A byte inside a message presents nothing (R112, R114 to R119). -/
theorem Decoding.pays_nothing {s t : State} {b : Byte} {bs : List Byte} {rest : List Event}
    (h : Decoding (b :: bs) rest s) (hstep : step s = .next t)
    (ht : SameOutside { s with input := bytesIn bs ++ rest, pos := s.pos + 1 } t) (hout : t.outputs = s.outputs)
    (hacc : (Fetch.taken t).Accounts (fetchedBytes s ++ [b])) : Pays b bs rest s :=
  ⟨t, [], hstep, h.next hacc.2 ht, ht.encOut, by simp [hout], by simp [hacc.1]⟩

/-- The last byte of a message presents its event (R120). -/
theorem Decoding.pays_event {s u : State} {i : Instr} {b : Byte} {bs : List Byte} {rest : List Event}
    (h : Decoding (b :: bs) rest s) (hstep : step s = exec i u)
    (hu : SameOutside { s with input := bytesIn bs ++ rest, pos := s.pos + 1 } u) (hout : u.outputs = s.outputs)
    (hwire : i.isWire = true) (hwf : i.wellFormed = true) (henc : encode i = .wire (fetchedBytes s ++ [b])) :
    Pays b bs rest s := by
  obtain ⟨e, he⟩ := Option.isSome_iff_exists.mp ((eventOf_isSome i).trans hwire)
  obtain ⟨later, hlater, hok, henough⟩ := h.answer
  have hmax : u.maxPayload = Config.defaultMaxPayload := hu.maxPayload.trans h.maxPayload
  have habort : u.abort = false := hu.abort.trans h.abort
  have hanswers : (loaded i u).answers = .ok :: later := by simp [hu.answers, hlater]
  rw [exec_wire he habort (hmax ▸ fitsPayload_default hwf), discharge_ok hanswers] at hstep
  refine ⟨_, [.event e], hstep, ⟨underway_of_idle rfl, ?_, rfl, ?_, hok, henough, ?_⟩, ?_, ?_, ?_⟩
  · simp [habort]
  · simp [hmax]
  · simp [hu.input]
  · simp [hu.encOut]
  · simp [hout]
  · simpa [fetchedBytes] using parse_message hwf henc he bs

/-- One byte, wherever the decoder stands. -/
theorem Decoding.pays {s : State} {b : Byte} {bs : List Byte} {rest : List Event} (h : Decoding (b :: bs) rest s) :
    Pays b bs rest s := by
  by_cases hb : s.state = .idle → isTag b = true
  · let s' : State := { s with input := bytesIn bs ++ rest }
    have hf : fetch s = takeByte b s' := fetch_byte h.input h.awaiting
    have hacc : (takeByte b s').Accounts (fetchedBytes s ++ [b]) :=
      takeByte_accounts (s := s') ⟨h.underway.header, h.underway.data⟩ h.abort hb h.maxPayload
    rcases takeByte_cases b s' with ⟨t, ht, hsame, hout, -⟩ | ⟨i, u, hu, hwire, hsame, hout, -⟩ | ⟨f, hu, -⟩ | ⟨n, hu, -⟩
    · rw [ht] at hacc
      have hquiet : t.outputs = s.outputs := hout.resolve_right fun ⟨hno, hs, _⟩ => by simp [hb hs] at hno
      exact h.pays_nothing (step_taken (hf.trans ht)) hsame hquiet hacc
    · rw [hu] at hacc
      obtain ⟨hwf, henc⟩ := hacc
      exact h.pays_event (step_run (hf.trans hu)) hsame hout hwire hwf henc
    · rw [hu] at hacc; exact hacc.elim
    · rw [hu] at hacc; exact hacc.elim
  · obtain ⟨hs, hno⟩ : s.state = .idle ∧ isTag b = false := by simpa using hb
    exact h.pays_illegalTag hs hno

/-- A whole run: what the decoder presents is the parse. -/
theorem Decoding.run {s : State} {bs : List Byte} {rest : List Event} (h : Decoding bs rest s) :
    ∃ t, runSteps bs.length s = .next t ∧ Decoding [] rest t ∧ t.encOut = s.encOut ∧
      t.outputs = s.outputs ++ parse (fetchedBytes s ++ bs) := by
  induction bs generalizing s with
  | nil => exact ⟨s, rfl, h, rfl, by simp [parse_fetchedBytes h.underway]⟩
  | cons b bs ih =>
    obtain ⟨u, new, hstep, hu, henc, hout, hparse⟩ := h.pays
    obtain ⟨t, hrun, ht, henc', hout'⟩ := ih hu
    exact ⟨t, (runSteps_next hstep).trans hrun, ht, henc'.trans henc, by rw [hout', hout, hparse, List.append_assoc]⟩

/-- Settles O29: in IDLE no message is in progress, so what the decoder owes is the parse of the bytes to come. -/
theorem decoderPresentsTheParse : Obligations.DecoderPresentsTheParse := by
  intro bs s rest hr hm hok hlen hi
  obtain ⟨hs, ha, hw⟩ := hr
  have h : Decoding bs rest s := ⟨underway_of_idle hs, ha, hw, hm, hok, hlen, hi⟩
  obtain ⟨t, hrun, ht, henc, hout⟩ := h.run
  exact ⟨t, hrun, by simpa [fetchedBytes, hs, parse] using hout, henc, ht.abort, ht.awaiting, ht.input⟩

end Machine

end Sys2Proof

/-! PROOFS. The integer codec (R80 to R82, R84): its arithmetic, its round trip, and the shift accumulator. -/

namespace Sys2Proof

/-! ### Bytes and fields -/

/-- Settles O1: each byte of a field is a slice of its bits, which is a quotient modulo 256. -/
theorem be32IsBigEndianDigits : Obligations.Be32IsBigEndianDigits := by
  intro v
  simp only [be32, List.map_cons, List.map_nil, extractByte_toNat, Nat.pow_zero, Nat.div_one]

/-- Settles O2: the sum by place values is Horner's sum, multiplied out. -/
theorem unbe32IsWeightedSum : Obligations.Unbe32IsWeightedSum := by
  intro b0 b1 b2 b3
  rw [unbe32_toNat_eq]
  ring

/-- Settles O3: a field's slices assemble to the field, and four bytes held in ACC are the encoding of the field ACC holds. -/
theorem intCodecRoundTrip : Obligations.IntCodecRoundTrip :=
  ⟨fun v => ⟨_, _, _, _, rfl, unbe32_extract v⟩,
    fun b0 b1 b2 b3 => Machine.Acc.be32_toWord ⟨b0, b1, b2, b3⟩⟩

/-! ### The shift accumulator -/

/-- One step of the shift accumulator (R84), as a number: what is shifted out above bit 31 is lost. -/
theorem shiftAccumulate_toNat (acc : Word) (b : Byte) :
    (acc * 256 + b.setWidth 32).toNat = (acc.toNat * 256 + b.toNat) % 2 ^ 32 := by
  simp [BitVec.toNat_add, BitVec.toNat_mul]

/-- Settles O4: four shifts by a byte move the starting value out of the word, and what they leave is Horner's sum. -/
theorem shiftAccumulatorAgrees : Obligations.ShiftAccumulatorAgrees := by
  intro a b0 b1 b2 b3
  apply BitVec.eq_of_toNat_eq
  simp only [List.foldl_cons, List.foldl_nil, shiftAccumulate_toNat, unbe32_toNat_eq]
  have h0 := b0.isLt
  have h1 := b1.isLt
  have h2 := b2.isLt
  have h3 := b3.isLt
  omega

end Sys2Proof

/-! PROOFS. The encoder (41_encoder.md): which buffer a command builds (R90 to R93), what its form does with it (R94 to
R97), and what the decoder makes of it (R103). -/

namespace Sys2Proof.Machine

/-! ### The buffer a command builds -/

/-- Operands pass the range check when each lies in 0 to 2^32 - 1 (R83, R90). -/
theorem allFit_iff (ns : List Int) : allFit ns = true ↔ ∀ n ∈ ns, 0 ≤ n ∧ n ≤ 4294967295 := by
  simp [allFit, fits32]

theorem buildRequest_toNat (o n st l : Word) :
    buildRequest o.toNat n.toNat st.toNat l.toNat = some (requestBytes o n st l) := by
  simp [buildRequest, allFit]

theorem buildRequest_outOfRange {o n st l : Int}
    (h : ¬((0 ≤ o ∧ o ≤ 4294967295) ∧ (0 ≤ n ∧ n ≤ 4294967295) ∧ (0 ≤ st ∧ st ≤ 4294967295) ∧
      (0 ≤ l ∧ l ≤ 4294967295))) : buildRequest o n st l = none :=
  if_neg (by simpa [allFit_iff] using h)

/-- The length field is the word that counts the payload (R102). -/
theorem buildSend_toNat (o n st : Word) {l : Word} {p : List Byte} (hl : p.length = l.toNat) :
    buildSend o.toNat n.toNat st.toNat p = some (headerBytes tagSend o n st l ++ p) := by
  simp [buildSend, allFit, sendBytes, hl]

theorem buildSend_outOfRange {o n st : Int} {p : List Byte}
    (h : ¬((0 ≤ o ∧ o ≤ 4294967295) ∧ (0 ≤ n ∧ n ≤ 4294967295) ∧ (0 ≤ st ∧ st ≤ 4294967295) ∧
      p.length ≤ 4294967295)) : buildSend o n st p = none := by
  have hp : (p.length : Int) ≤ 4294967295 ↔ p.length ≤ 4294967295 := by omega
  exact if_neg (by simpa [allFit_iff, hp] using h)

theorem buildCommand_toNat (c n : Word) : buildCommand c.toNat n.toNat = some (commandBytes c n) := by
  simp [buildCommand, allFit]

theorem buildCommand_outOfRange {c n : Int} (h : ¬((0 ≤ c ∧ c ≤ 4294967295) ∧ (0 ≤ n ∧ n ≤ 4294967295))) :
    buildCommand c n = none :=
  if_neg (by simpa [allFit_iff] using h)

/-! ### What a command's form does with it -/

/-- A command with `dispatch` 0 returns the buffer it builds (R91 to R93). -/
theorem exec_returning {i : Instr} (hw : i.isWire = false) (hd : i.opcode % 2 = 0) (s : State) :
    exec i s = .next { s with encOut := s.encOut ++ returnedOut (builtBuffer i) } := by
  cases i with
  | encRequest | encSend | encCommand => exact congrArg Host.Outcome.next (returnBuffer_eq _ s)
  | encRequestD | encSendD | encCommandD => simp [Instr.opcode] at hd
  | request | send | command => cases hw

/-- A command with `dispatch` 1 sends the buffer it builds (R94 to R96). -/
theorem exec_dispatching {i : Instr} (hw : i.isWire = false) (hd : i.opcode % 2 = 1) (s : State) :
    exec i s = .next { s with encOut := s.encOut ++ dispatchedOut (builtBuffer i) } := by
  cases i with
  | encRequestD | encSendD | encCommandD => exact congrArg Host.Outcome.next (dispatchBuffer_eq _ s)
  | encRequest | encSend | encCommand => simp [Instr.opcode] at hd
  | request | send | command => cases hw

/-- The buffer-returning form answers with the buffer built. -/
theorem returnBuffer_of_some {r : Option (List Byte)} {out : List Byte} {s : State} (h : r = some out) :
    returnBuffer r s = { s with encOut := s.encOut ++ [.result (.ok out)] } := by
  rw [returnBuffer_eq, h, returnedOut]

/-- The dispatching form sends the buffer built in one piece, before its result `Done` (R56, R99). -/
theorem dispatchBuffer_of_some {r : Option (List Byte)} {out : List Byte} {s : State} (h : r = some out) :
    dispatchBuffer r s = { s with encOut := s.encOut ++ [.send out, .result .done] } := by
  rw [dispatchBuffer_eq, h, dispatchedOut]

/-- The buffer-returning form without a buffer (R90). -/
theorem returnBuffer_of_none {r : Option (List Byte)} {s : State} (h : r = none) :
    returnBuffer r s = { s with encOut := s.encOut ++ [.result (.err .fieldOutOfRange)] } := by
  rw [returnBuffer_eq, h, returnedOut]

/-- The dispatching form without a buffer sends nothing (R90). -/
theorem dispatchBuffer_of_none {r : Option (List Byte)} {s : State} (h : r = none) :
    dispatchBuffer r s = { s with encOut := s.encOut ++ [.result (.err .fieldOutOfRange)] } := by
  rw [dispatchBuffer_eq, h, dispatchedOut]

/-! ### The six commands -/

/-- Settles O11, by whether the operands are in range. -/
theorem encRequestReturnsItsBuffer : Obligations.EncRequestReturnsItsBuffer :=
  ⟨fun o n st l _ => ⟨congrArg Host.Outcome.next (returnBuffer_of_some (buildRequest_toNat o n st l)), rfl⟩,
    fun _ _ _ _ _ h => congrArg Host.Outcome.next (returnBuffer_of_none (buildRequest_outOfRange h))⟩

/-- Settles O12, by whether the operands and the payload's length are in range. -/
theorem encSendReturnsItsBuffer : Obligations.EncSendReturnsItsBuffer :=
  ⟨fun o n st l p _ hl =>
      ⟨congrArg Host.Outcome.next (returnBuffer_of_some (buildSend_toNat o n st hl)),
        List.length_append (as := headerBytes tagSend o n st l) (bs := p)⟩,
    fun _ _ _ _ _ h => congrArg Host.Outcome.next (returnBuffer_of_none (buildSend_outOfRange h))⟩

/-- Settles O13, by whether the operands are in range. -/
theorem encCommandReturnsItsBuffer : Obligations.EncCommandReturnsItsBuffer :=
  ⟨fun c n _ => ⟨congrArg Host.Outcome.next (returnBuffer_of_some (buildCommand_toNat c n)), rfl⟩,
    fun _ _ _ h => congrArg Host.Outcome.next (returnBuffer_of_none (buildCommand_outOfRange h))⟩

/-- Settles O14: the buffer of ENC_REQUEST, dispatched. -/
theorem encRequestDSendsItsBuffer : Obligations.EncRequestDSendsItsBuffer :=
  ⟨fun o n st l _ => congrArg Host.Outcome.next (dispatchBuffer_of_some (buildRequest_toNat o n st l)),
    fun _ _ _ _ _ h => congrArg Host.Outcome.next (dispatchBuffer_of_none (buildRequest_outOfRange h))⟩

/-- Settles O15: the buffer of ENC_SEND, dispatched. -/
theorem encSendDSendsItsBuffer : Obligations.EncSendDSendsItsBuffer :=
  ⟨fun o n st _ _ _ hl => congrArg Host.Outcome.next (dispatchBuffer_of_some (buildSend_toNat o n st hl)),
    fun _ _ _ _ _ h => congrArg Host.Outcome.next (dispatchBuffer_of_none (buildSend_outOfRange h))⟩

/-- Settles O16: the buffer of ENC_COMMAND, dispatched. -/
theorem encCommandDSendsItsBuffer : Obligations.EncCommandDSendsItsBuffer :=
  ⟨fun c n _ => congrArg Host.Outcome.next (dispatchBuffer_of_some (buildCommand_toNat c n)),
    fun _ _ _ h => congrArg Host.Outcome.next (dispatchBuffer_of_none (buildCommand_outOfRange h))⟩

/-! ### What every command keeps to -/

/-- The buffer-returning form sends nothing to the transport. -/
theorem send_not_mem_returnedOut (r : Option (List Byte)) (bytes : List Byte) : .send bytes ∉ returnedOut r := by
  cases r <;> simp [returnedOut]

/-- Settles O17, by the dispatch bit: either form's outputs are a function of the buffer built. -/
theorem encoderIsPure : Obligations.EncoderIsPure := by
  intro i hw
  rcases Nat.mod_two_eq_zero_or_one i.opcode with hd | hd
  · exact ⟨_, exec_returning hw hd, fun _ => send_not_mem_returnedOut _⟩
  · exact ⟨_, exec_dispatching hw hd, fun h0 => by omega⟩

/-- What a command has appended is what one of the two forms puts out for the buffer it builds. -/
theorem exec_command_appends {i : Instr} {s t : State} {new : List EncOutput} (hw : i.isWire = false)
    (h : exec i s = .next t) (hn : t.encOut = s.encOut ++ new) :
    new = returnedOut (builtBuffer i) ∨ new = dispatchedOut (builtBuffer i) := by
  rcases exec_command hw with hs | hs
  · rw [hs] at h; cases h; exact .inl (List.append_cancel_left hn).symm
  · rw [hs] at h; cases h; exact .inr (List.append_cancel_left hn).symm

/-- Bytes in a command's outputs are the buffer it built: without one there are none. -/
theorem buffer_of_bytes_mem {r : Option (List Byte)} {new : List EncOutput} {bytes : List Byte}
    (hn : new = returnedOut r ∨ new = dispatchedOut r) (hm : .result (.ok bytes) ∈ new ∨ .send bytes ∈ new) :
    r = some bytes := by
  cases r with
  | none => rcases hn with rfl | rfl <;> simp [returnedOut, dispatchedOut] at hm
  | some out => rcases hn with rfl | rfl <;> simpa [returnedOut, dispatchedOut, eq_comm] using hm

/-- An error in a command's outputs means that it built no buffer, and is then all it puts out. -/
theorem outputs_of_err_mem {r : Option (List Byte)} {new : List EncOutput} {k : ErrorKind}
    (hn : new = returnedOut r ∨ new = dispatchedOut r) (hm : .result (.err k) ∈ new) :
    k = .fieldOutOfRange ∧ new = [.result (.err .fieldOutOfRange)] := by
  cases r with
  | none => rcases hn with rfl | rfl <;> simpa [returnedOut, dispatchedOut] using hm
  | some out => rcases hn with rfl | rfl <;> simp [returnedOut, dispatchedOut] at hm

/-- Settles O18: such bytes are the buffer the command built, an encoding, which the wire decoder reads back. -/
theorem encoderBuffersAreMessages : Obligations.EncoderBuffersAreMessages := by
  intro i s t new bytes hw h hn hm
  obtain ⟨m, hmw, hwf, henc⟩ := builtBuffer_isMessage (buffer_of_bytes_mem (exec_command_appends hw h hn) hm)
  exact ⟨m, hmw, hwf, by simpa using decodeMessage_encode hwf henc []⟩

/-- Settles O19: only a command that built no buffer puts out an error. -/
theorem encoderErrorsAreFieldOutOfRange : Obligations.EncoderErrorsAreFieldOutOfRange :=
  fun _ _ _ _ _ hw h hn hm => outputs_of_err_mem (exec_command_appends hw h hn) hm

end Sys2Proof.Machine

/-! PROOFS. The decoder's steps (42_decoder.md, sections 2 and 3): what each kind of byte and `EOB` do (R112 to R119,
R124, R129), and what a wire message does when it is executed (R118, R120 to R123). -/

namespace Sys2Proof.Machine

/-! ### Lengths as words -/

/-- The word that counts what a length field says is that field (R63). -/
theorem ofNat_of_eq_toNat {n : Nat} {v : Word} (h : n = v.toNat) : BitVec.ofNat 32 n = v := by
  rw [h, BitVec.ofNat_toNat, BitVec.setWidth_eq]

/-- A length below 2^32 is what its length field says (R63). -/
theorem toNat_ofNat_of_lt {n : Nat} (h : n < 2 ^ 32) : (BitVec.ofNat 32 n).toNat = n := by
  rw [BitVec.toNat_ofNat, Nat.mod_eq_of_lt h]

/-! ### Executing a wire message -/

/-- A wire message overwrites STATE, CNT, PAY and the registers it loads, so their contents before it do not matter;
only a COMMAND leaves START and LEN as they are (R121 to R123). -/
theorem exec_wire_sameOutside {i : Instr} {s t : State} (hwire : i.isWire = true) (ha : s.abort = false)
    (h : SameOutside s t) (hout : t.outputs = s.outputs)
    (hcommand : ∀ c n, i = .command c n → t.start = s.start ∧ t.len = s.len) : exec i t = exec i s := by
  cases s; cases t
  obtain ⟨h1, h2, h3, h4, h5, h6, h7, h8, h9⟩ := h
  dsimp only at *
  subst h1 h2 h3 h4 h5 h6 h7 h8 h9 ha hout
  cases i with
  | request => rfl
  | send => rfl
  | command c n => obtain ⟨rfl, rfl⟩ := hcommand c n rfl; rfl
  | _ => cases hwire

/-- A REQUEST, executed. -/
theorem exec_request {s : State} (ha : s.abort = false) (o n st l : Word) :
    exec (.request o n st l) s =
      .next (takeAnswer { s with
        state := .idle, tag := tagRequest, acc := Acc.ofWord l, cnt := 0, obj := o, inst := n, start := st, len := l,
        pay := [], outputs := s.outputs ++ [.event (.onRequest o n st l)] }) :=
  exec_wire rfl ha rfl

/-- A SEND of at most `MAX_PAYLOAD` bytes, executed. -/
theorem exec_send {s : State} (ha : s.abort = false) (o n st : Word) {l : Word} {p : List Byte}
    (hl : p.length = l.toNat) (hm : l ≤ s.maxPayload) :
    exec (.send o n st p) s =
      .next (takeAnswer { s with
        state := .idle, tag := tagSend, acc := Acc.ofWord l, cnt := 0, obj := o, inst := n, start := st, len := l,
        pay := [], outputs := s.outputs ++ [.event (.onObjectReceived o n st p)] }) := by
  have hfits : fitsPayload s.maxPayload (.send o n st p) = true := decide_eq_true (hl ▸ hm)
  rw [exec_wire rfl ha hfits, discharge_eq, loaded, ofNat_of_eq_toNat hl]

/-- A COMMAND, executed. -/
theorem exec_command_message {s : State} (ha : s.abort = false) (c n : Word) :
    exec (.command c n) s =
      .next (takeAnswer { s with
        state := .idle, tag := tagCommand, acc := Acc.ofWord n, cnt := 0, obj := c, inst := n,
        pay := [], outputs := s.outputs ++ [.event (.onCommand c n)] }) :=
  exec_wire rfl ha rfl

/-- Settles O24, by the length check that precedes the discharge. -/
theorem sendAboveMaxPayloadRefused : Obligations.SendAboveMaxPayloadRefused := by
  intro o n st p s ha hlt
  simp [exec, execSend, ha, hlt]

/-- Looking for the answer presents nothing, or `HandlerFailure` with ABORT set (R128, R144). -/
theorem takeAnswer_outputs (s : State) :
    (takeAnswer s).outputs = s.outputs ∨
    ((takeAnswer s).outputs = s.outputs ++ [.report .handlerFailure] ∧ (takeAnswer s).abort = true) := by
  rcases takeAnswer_cases s with ⟨-, h⟩ | ⟨later, -, h⟩ | ⟨later, -, h⟩ | ⟨later, -, h⟩ <;> rw [h]
  · exact .inl rfl
  · exact .inl rfl
  · exact .inl rfl
  · exact .inr ⟨rfl, rfl⟩

/-- A discharge presents its event, alone or with `HandlerFailure` after it and ABORT set (R120, R144). -/
theorem discharge_outputs (e : HandlerEvent) (s : State) :
    (discharge e s).outputs = s.outputs ++ [.event e] ∨
    ((discharge e s).outputs = s.outputs ++ [.event e, .report .handlerFailure] ∧ (discharge e s).abort = true) := by
  simpa [discharge] using takeAnswer_outputs (State.emit { s with state := .idle, cnt := 0, pay := [] } e)

/-- Settles O23: a message that is not discarded is a discharge after a load, and each leaves its frame alone. -/
theorem wireMessageFrame : Obligations.WireMessageFrame := by
  intro i s t hwire h
  cases ha : s.abort with
  | true =>
    rw [exec_wire_abort hwire ha] at h
    cases h
    exact ⟨rfl, rfl, rfl, rfl, rfl, rfl, List.prefix_rfl, fun _ _ _ => ⟨rfl, rfl⟩, fun _ => rfl, nofun⟩
  | false =>
    obtain ⟨e, -, -, rfl⟩ := exec_wire_next hwire ha h
    have hout : s.outputs <+: (discharge e (loaded i s)).outputs := by
      rcases discharge_outputs e (loaded i s) with h | ⟨h, -⟩ <;> simp [h]
    have hcommand : ∀ c n, i = .command c n →
        (discharge e (loaded i s)).start = s.start ∧ (discharge e (loaded i s)).len = s.len := by
      rintro c n rfl
      simp [loaded]
    have hpay : ∀ a, (discharge e (loaded i s)).pay.read a = none := fun a => by rw [discharge_pay]; rfl
    exact ⟨by simp, by simp, by simp, by simp, by simp, by simp, hout, hcommand, nofun, fun _ => hpay⟩

/-! ### The byte that completes a message -/

/-- ACC with the last byte of a field holds the field. -/
theorem Acc.ofWord_fourth (a : Acc) (b : Byte) : Acc.ofWord (unbe32 a.b0 a.b1 a.b2 b) = { a with b3 := b } :=
  Acc.ofWord_toWord { a with b3 := b }

@[simp] theorem Fetch.execute_taken (t : State) : (Fetch.taken t).execute = .next t := rfl
@[simp] theorem Fetch.execute_run (i : Instr) (t : State) : (Fetch.run i t).execute = exec i t := rfl
@[simp] theorem Fetch.execute_refused (r : Refusal) : (Fetch.refused r).execute = .refused r := rfl

section
variable {s : State} {b : Byte} {rest : List Event} (ha : s.abort = false) (hw : s.awaiting = false)
  (hi : s.input = .port (.byte b) :: rest)
include ha hw hi

/-! The fourth byte of each field (R114, R13). -/

theorem step_objectId_fourth (hs : s.state = .readObjectId) (hc : s.cnt = 3) :
    step s = (completeField { s with
      input := rest, pos := s.pos + 1, acc := { s.acc with b3 := b }, cnt := 0,
      obj := unbe32 s.acc.b0 s.acc.b1 s.acc.b2 b }).execute := by
  rw [step_field_last (by rw [hs]; rfl) ha hw hi hc, hs]
  rfl

theorem step_instanceNo_fourth (hs : s.state = .readInstanceNo) (hc : s.cnt = 3) :
    step s = (completeField { s with
      input := rest, pos := s.pos + 1, acc := { s.acc with b3 := b }, cnt := 0,
      inst := unbe32 s.acc.b0 s.acc.b1 s.acc.b2 b }).execute := by
  rw [step_field_last (by rw [hs]; rfl) ha hw hi hc, hs]
  rfl

theorem step_start_fourth (hs : s.state = .readStart) (hc : s.cnt = 3) :
    step s = (completeField { s with
      input := rest, pos := s.pos + 1, acc := { s.acc with b3 := b }, cnt := 0,
      start := unbe32 s.acc.b0 s.acc.b1 s.acc.b2 b }).execute := by
  rw [step_field_last (by rw [hs]; rfl) ha hw hi hc, hs]
  rfl

theorem step_length_fourth (hs : s.state = .readLength) (hc : s.cnt = 3) :
    step s = (completeField { s with
      input := rest, pos := s.pos + 1, acc := { s.acc with b3 := b }, cnt := 0,
      len := unbe32 s.acc.b0 s.acc.b1 s.acc.b2 b }).execute := by
  rw [step_field_last (by rw [hs]; rfl) ha hw hi hc, hs]
  rfl

/-- The last byte of a COMMAND executes it, its second field being the value of the four bytes (R116). -/
theorem step_command_last {v : Word} (hs : s.state = .readInstanceNo) (hc : s.cnt = 3) (ht : s.tag = tagCommand)
    (hv : unbe32 s.acc.b0 s.acc.b1 s.acc.b2 b = v) :
    step s = exec (.command s.obj v) { s with input := rest, pos := s.pos + 1 } := by
  subst hv
  rw [step_instanceNo_fourth ha hw hi hs hc, completeField_command (by exact hs) (by exact ht), Fetch.execute_run]
  exact exec_wire_sameOutside rfl ha ⟨rfl, rfl, rfl, rfl, rfl, rfl, rfl, rfl, rfl⟩ rfl fun _ _ _ => ⟨rfl, rfl⟩

/-- The last byte of a REQUEST executes it, its last field being the value of the four bytes (R118). -/
theorem step_request_last {v : Word} (hs : s.state = .readLength) (hc : s.cnt = 3) (ht : s.tag = tagRequest)
    (hv : unbe32 s.acc.b0 s.acc.b1 s.acc.b2 b = v) :
    step s = exec (.request s.obj s.inst s.start v) { s with input := rest, pos := s.pos + 1 } := by
  subst hv
  rw [step_length_fourth ha hw hi hs hc, completeField_request (by exact hs) (by exact ht), Fetch.execute_run]
  exact exec_wire_sameOutside rfl ha ⟨rfl, rfl, rfl, rfl, rfl, rfl, rfl, rfl, rfl⟩ rfl nofun

/-- The last byte of a SEND without payload executes it (R118). -/
theorem step_emptySend_last (hs : s.state = .readLength) (hc : s.cnt = 3) (ht : s.tag = tagSend)
    (hl : unbe32 s.acc.b0 s.acc.b1 s.acc.b2 b = 0) :
    step s = exec (.send s.obj s.inst s.start []) { s with input := rest, pos := s.pos + 1 } := by
  have hne : s.tag ≠ tagRequest := by rw [ht]; decide
  rw [step_length_fourth ha hw hi hs hc, completeField_emptySend (by exact hs) (by exact hne) (by exact hl),
    Fetch.execute_run]
  exact exec_wire_sameOutside rfl ha ⟨rfl, rfl, rfl, rfl, rfl, rfl, rfl, rfl, rfl⟩ rfl nofun

/-- The last byte of a payload executes the SEND (R119). -/
theorem step_send_last {pre : List Byte} (hs : s.state = .readData) (hp : s.pay = Memory.ofBytes 0 pre)
    (hc : s.cnt = BitVec.ofNat 32 pre.length) (hl : pre.length + 1 = s.len.toNat) :
    step s = exec (.send s.obj s.inst s.start (pre ++ [b])) { s with input := rest, pos := s.pos + 1 } := by
  rw [step_payload_last hs ha hw hp hc hl hi]
  exact exec_wire_sameOutside rfl ha ⟨rfl, rfl, rfl, rfl, rfl, rfl, rfl, rfl, rfl⟩ rfl nofun

end

/-! ### One step each -/

/-- Settles O30: such a byte is a legal tag. -/
theorem legalTagStartsAMessage : Obligations.LegalTagStartsAMessage := by
  intro s b rest hr hi hb
  have htag : isTag b = true := by rcases hb with rfl | rfl | rfl <;> rfl
  rw [← runSteps_one]
  exact run_tag hr htag hi

/-- Settles O31: such a byte is no legal tag, and raising `InvalidTag` is its report alone. -/
theorem illegalTagIsReportedAndSkipped : Obligations.IllegalTagIsReportedAndSkipped := by
  intro s b rest hr hi h1 h2 h3
  have htag : isTag b = false := by
    simpa [isTag, tagRequest, tagSend, tagCommand, and_assoc] using ⟨h1, h2, h3⟩
  apply step_taken
  rw [fetch_idle hr hi, idleByte, htag]
  rfl

/-- Settles O32: with CNT below 3 the byte is stored and completes nothing. -/
theorem headerByteIsAccumulated : Obligations.HeaderByteIsAccumulated := by
  intro s b rest hs ha hw hi hc
  obtain ⟨acc, hset, hb⟩ := headerByte_stored (b := b) (s := { s with input := rest, pos := s.pos + 1 }) hc
  obtain ⟨-, hbytes⟩ := Acc.set_bytes hset
  exact ⟨acc, hbytes, step_taken ((fetch_header hs ha hw hi).trans hb)⟩

/-- Settles O33: the fourth byte completes the field, which moves STATE on. -/
theorem objectIdAndStartComplete : Obligations.ObjectIdAndStartComplete := by
  intro s b rest ha hw hi hc
  refine ⟨fun hs => ?_, fun hs => ?_⟩
  · rw [step_objectId_fourth ha hw hi hs hc, completeField_objectId (by exact hs), Fetch.execute_taken]
  · rw [step_start_fourth ha hw hi hs hc, completeField_start (by exact hs), Fetch.execute_taken]

/-- Settles O34: a COMMAND is executed, any other message goes on. -/
theorem instanceNoCompletes : Obligations.InstanceNoCompletes := by
  intro s b rest hs ha hw hi hc hp t
  refine ⟨fun ht => ?_, fun ht => ?_⟩
  · rw [step_command_last ha hw hi hs hc ht rfl, exec_command_message (by exact ha), Acc.ofWord_fourth]
    simp only [t, ht, hp]
    rfl
  · rw [step_instanceNo_fourth ha hw hi hs hc, completeField_instanceNo (by exact hs) (by exact ht),
      Fetch.execute_taken]

/-- Settles O35: a REQUEST and an empty SEND are executed; any other SEND is refused or goes on, by its length. -/
theorem lengthCompletes : Obligations.LengthCompletes := by
  intro s b rest hs ha hw hi hc hp t
  have hstep : step s = (completeField t).execute := step_length_fourth ha hw hi hs hc
  have hsend : s.tag = 2 → t.tag ≠ tagRequest := fun ht => by change s.tag ≠ _; rw [ht]; decide
  refine ⟨fun ht => ?_, fun ht hl => ?_, fun ht hl hm => ?_, fun ht hl hm => ?_⟩
  · rw [step_request_last ha hw hi hs hc ht rfl, exec_request (by exact ha), Acc.ofWord_fourth]
    simp only [t, ht, hp]
    rfl
  · rw [step_emptySend_last ha hw hi hs hc ht hl, exec_send (l := t.len) (by exact ha) _ _ _ (by rw [hl]; rfl)
      (by rw [hl]; exact Nat.zero_le _), Acc.ofWord_fourth]
    simp only [t, ht, hp]
    rfl
  · rw [hstep, completeField_tooLong (s := t) hs (hsend ht) hl hm, Fetch.execute_refused]
  · rw [hstep, completeField_payload (s := t) hs (hsend ht) hl (BitVec.not_lt.mpr hm), Fetch.execute_taken]
    simp only [t, hp]

/-- PAY, while it exists, is the bytes received from address 0 upward (R16). -/
theorem State.Inv.payload {s : State} (h : s.Inv) (hs : s.state = .readData) :
    s.pay = Memory.ofBytes 0 (s.pay.map Prod.snd) ∧ (s.pay.map Prod.snd).length = s.cnt.toNat := by
  obtain ⟨-, -, -, hdata, -⟩ := h
  obtain ⟨-, -, -, -, hlen, hpay⟩ := hdata hs
  exact ⟨hpay.symm, by rw [List.length_map, hlen]⟩

/-- Settles O36: a byte that is not the last is written, and the last one executes the SEND. -/
theorem payloadByteIsStored : Obligations.PayloadByteIsStored := by
  intro s b rest h hs hi
  obtain ⟨htag, hacc, hlt, hmax, ha, hw⟩ := h.data hs
  obtain ⟨hpay, hlen⟩ := h.payload hs
  refine ⟨fun hne => ⟨s.pay.write s.cnt.toNat b, step_taken ?_, Memory.read_write_same ..,
    fun a => Memory.read_write_other _ b⟩, fun he => ?_⟩
  · rw [fetch_data hs ha hw hi, dataByte_more (by exact hlt) (by exact hne)]
  · have hlast : (s.pay.map Prod.snd).length + 1 = s.len.toNat := by rw [hlen]; bv_omega
    rw [step_send_last ha hw hi hs hpay (ofNat_of_eq_toNat hlen).symm hlast,
      exec_send (l := s.len) (by exact ha) _ _ _ (by rw [List.length_append, ← hlast]; rfl) (by exact hmax)]
    simp only [htag, hacc]

/-- Settles O37: a byte is discarded before STATE is looked at. -/
theorem abortDiscardsBytes : Obligations.AbortDiscardsBytes :=
  fun _ _ _ ha hw hi => step_taken (fetch_discarded ha hw hi)

/-- Settles O38: in LEGACY mode `EOB` leads to the fresh automaton. -/
theorem legacyEndOfBuffer : Obligations.LegacyEndOfBuffer := by
  intro s rest hm hw hi
  have hstep : step s = .next (freshAutomaton { s with input := rest }) := by
    rw [step_taken (fetch_eob hi hw), endOfBuffer, hm]
  exact ⟨_, hstep, rfl, rfl, rfl, rfl, rfl, rfl, rfl, rfl, rfl, hw, rfl, rfl, rfl⟩

end Sys2Proof.Machine

/-! PROOFS. The bytes of a message (42_decoder.md, sections 2 and 3): taken one step each from IDLE they are the message
executed once (R111, R121 to R123), in the step that takes its last byte (entry 5), and what then follows is the
handler's answer (R33, R128). -/

namespace Sys2Proof.Machine

/-! ### From IDLE to the last byte -/

/-- From `s`, these bytes are taken one step each, nothing is presented before the last of them, and together they are
`i` executed once. -/
def RunsAs (i : Instr) (bs : List Byte) (rest : List Event) (s : State) : Prop :=
  Feeds s bs rest ∧ runSteps bs.length s = exec i { s with pos := s.pos + bs.length, input := rest }

/-- Bytes that present nothing, and then bytes that are the message executed in a state in which it does the same. -/
theorem RunsAs.of_append {i : Instr} {bs cs : List Byte} {rest : List Event} {s t u : State}
    (hfeed : Feeds s bs (bytesIn cs ++ rest)) (hrun : runSteps bs.length s = .next t) (hq : Quiet s t)
    (hlast : Feeds t cs rest ∧ runSteps cs.length t = exec i u)
    (hu : exec i u = exec i { s with pos := s.pos + (bs.length + cs.length), input := rest }) :
    RunsAs i (bs ++ cs) rest s := by
  obtain ⟨hfeed', hexec⟩ := hlast
  refine ⟨hfeed.append hrun hq hfeed', ?_⟩
  rw [List.length_append, runSteps_add hrun, hexec, hu]

/-- The bytes of a REQUEST (R121). -/
theorem request_runsAs {s : State} {o n st l : Word} {rest : List Event} (hr : s.Ready)
    (hi : s.input = bytesIn (requestBytes o n st l) ++ rest) :
    RunsAs (.request o n st l) (requestBytes o n st l) rest s := by
  have hsplit : requestBytes o n st l = (tagRequest :: (be32 o ++ be32 n ++ be32 st)) ++ be32 l := rfl
  rw [hsplit, bytesIn_append, List.append_assoc] at hi
  obtain ⟨hfeed, hrun⟩ := run_header hr rfl (by decide) hi
  obtain ⟨-, ha, hw⟩ := hr
  have hlast := run_request (s := beforeLength s tagRequest o n st (bytesIn (be32 l) ++ rest)) rfl ha hw rfl rfl rfl
  rw [hsplit]
  exact .of_append hfeed hrun ⟨rfl, rfl, rfl, ha, hw⟩ hlast
    (exec_wire_sameOutside rfl ha ⟨rfl, rfl, rfl, rfl, rfl, rfl, rfl, rfl, rfl⟩ rfl nofun)

/-- The length field and the payload of a SEND (R118, R119, R122). -/
theorem sendTail_runsAs {s : State} {l : Word} {p : List Byte} {rest : List Event} (hs : s.state = .readLength)
    (ha : s.abort = false) (hw : s.awaiting = false) (hc : s.cnt = 0) (ht : s.tag = tagSend) (hl : p.length = l.toNat)
    (hm : l ≤ s.maxPayload) (hi : s.input = bytesIn (be32 l ++ p) ++ rest) :
    RunsAs (.send s.obj s.inst s.start p) (be32 l ++ p) rest s := by
  cases p with
  | nil =>
    have hl0 : l = 0 := BitVec.eq_of_toNat_eq hl.symm
    obtain ⟨hfeed, hrun⟩ := run_emptySend (n := l) hs ha hw hc ht hl0 (by simpa using hi)
    rw [List.append_nil]
    exact ⟨hfeed, hrun.trans
      (exec_wire_sameOutside rfl ha ⟨rfl, rfl, rfl, rfl, rfl, rfl, rfl, rfl, rfl⟩ rfl nofun)⟩
  | cons b bs =>
    have hl0 : l ≠ 0 := by rintro rfl; cases hl
    rw [bytesIn_append, List.append_assoc] at hi
    obtain ⟨hfeed, hrun⟩ := run_sendLength hs ha hw hc ht hl0 hm hi
    have hlast := run_payload (s := { s with
      input := bytesIn (b :: bs) ++ rest, pos := s.pos + 4, cnt := 0, len := l, acc := Acc.ofWord l, pay := [],
      state := .readData }) rfl ha hw rfl rfl (List.cons_ne_nil b bs) hl rfl
    exact .of_append hfeed hrun ⟨rfl, rfl, rfl, ha, hw⟩ hlast
      (exec_wire_sameOutside rfl ha ⟨rfl, rfl, rfl, rfl, rfl, rfl, rfl, rfl, Nat.add_assoc ..⟩ rfl nofun)

/-- The bytes of a SEND of at most `MAX_PAYLOAD` bytes (R122). -/
theorem send_runsAs {s : State} {o n st : Word} {p : List Byte} {rest : List Event} (hr : s.Ready)
    (hp : p.length < 2 ^ 32) (hm : p.length ≤ s.maxPayload.toNat)
    (hi : s.input = bytesIn (sendBytes o n st p) ++ rest) : RunsAs (.send o n st p) (sendBytes o n st p) rest s := by
  have hl : p.length = (BitVec.ofNat 32 p.length).toNat := (toNat_ofNat_of_lt hp).symm
  have hsplit : sendBytes o n st p =
      (tagSend :: (be32 o ++ be32 n ++ be32 st)) ++ (be32 (BitVec.ofNat 32 p.length) ++ p) := rfl
  rw [hsplit, bytesIn_append, List.append_assoc] at hi
  obtain ⟨hfeed, hrun⟩ := run_header hr rfl (by decide) hi
  obtain ⟨-, ha, hw⟩ := hr
  have hlast := sendTail_runsAs (s := beforeLength s tagSend o n st _) (rest := rest) rfl ha hw rfl rfl hl
    (by rw [BitVec.le_def, ← hl]; exact hm) rfl
  rw [hsplit]
  exact .of_append hfeed hrun ⟨rfl, rfl, rfl, ha, hw⟩ hlast
    (exec_wire_sameOutside rfl ha ⟨rfl, rfl, rfl, rfl, rfl, rfl, rfl, rfl, Nat.add_assoc s.pos 13 _⟩ rfl nofun)

/-- The bytes of a COMMAND (R123). -/
theorem command_runsAs {s : State} {c n : Word} {rest : List Event} (hr : s.Ready)
    (hi : s.input = bytesIn (commandBytes c n) ++ rest) : RunsAs (.command c n) (commandBytes c n) rest s := by
  have hsplit : commandBytes c n = (tagCommand :: be32 c) ++ be32 n := rfl
  rw [hsplit, bytesIn_append, List.append_assoc] at hi
  obtain ⟨hfeed, hrun⟩ := run_tagged hr rfl hi
  obtain ⟨-, ha, hw⟩ := hr
  have hlast := run_command (n := n) (rest := rest) (s := { s with
    input := bytesIn (be32 n) ++ rest, pos := s.pos + 5, tag := tagCommand, cnt := 0, state := .readInstanceNo,
    obj := c, acc := Acc.ofWord c }) rfl ha hw rfl rfl rfl
  rw [hsplit]
  exact .of_append hfeed hrun ⟨rfl, rfl, rfl, ha, hw⟩ hlast
    (exec_wire_sameOutside rfl ha ⟨rfl, rfl, rfl, rfl, rfl, rfl, rfl, rfl, rfl⟩ rfl fun _ _ _ => ⟨rfl, rfl⟩)

/-- The bytes of any well-formed message that fits are the message executed once. -/
theorem message_runsAs {i : Instr} {bs : List Byte} {rest : List Event} {s : State} (hwf : i.wellFormed = true)
    (henc : encode i = .wire bs) (hfits : fitsPayload s.maxPayload i = true) (hr : s.Ready)
    (hi : s.input = bytesIn bs ++ rest) : RunsAs i bs rest s := by
  cases i with
  | request => cases henc; exact request_runsAs hr hi
  | send => cases henc; exact send_runsAs hr (of_decide_eq_true hwf) (of_decide_eq_true hfits) hi
  | command => cases henc; exact command_runsAs hr hi
  | _ => cases henc

/-- Settles O26: what `Feeds` says of the bytes before the last, and the run of all of them. -/
theorem messageBytesRunTheInstruction : Obligations.MessageBytesRunTheInstruction := by
  intro i bs rest s hwf henc hfits hr hi
  obtain ⟨hfeed, hrun⟩ := message_runsAs hwf henc hfits hr hi
  refine ⟨fun k hk => ?_, hrun⟩
  obtain ⟨t, ht, hq, hin⟩ := hfeed k hk
  exact ⟨t, ht, hq.outputs, hq.answers, hq.encOut, hq.abort, hq.awaiting, hin⟩

/-! ### The three messages -/

/-- Nothing is presented before the last byte. -/
theorem Feeds.presents_nothing {s : State} {bs : List Byte} {rest : List Event} (h : Feeds s bs rest) {k : Nat}
    (hk : k < bs.length) : ∃ t, runSteps k s = .next t ∧ t.outputs = s.outputs := by
  obtain ⟨t, ht, hq, -⟩ := h k hk
  exact ⟨t, ht, hq.outputs⟩

/-- Settles O20: the bytes are the REQUEST executed. -/
theorem requestIsDischarged : Obligations.RequestIsDischarged := by
  refine ⟨fun o n st l s ha => exec_request ha o n st l, fun o n st l rest s hr hi => ?_⟩
  obtain ⟨hfeed, hrun⟩ := request_runsAs (o := o) (n := n) (st := st) (l := l) hr hi
  obtain ⟨-, ha, -⟩ := hr
  exact ⟨fun k hk => hfeed.presents_nothing (Nat.lt_succ_of_le hk), hrun.trans (exec_request (by exact ha) o n st l)⟩

/-- Settles O21: the bytes are the SEND executed; its length field is the word that counts the payload. -/
theorem sendIsDischarged : Obligations.SendIsDischarged := by
  refine ⟨fun o n st l p s ha hl hm => exec_send ha o n st hl hm, fun o n st l p rest s hr hl hm hi => ?_⟩
  have hbytes : 2 :: (be32 o ++ be32 n ++ be32 st ++ be32 l ++ p) = sendBytes o n st p := by
    rw [sendBytes, ofNat_of_eq_toNat hl]; rfl
  have hlen : (sendBytes o n st p).length = 17 + p.length := List.length_append
  rw [hbytes] at hi
  obtain ⟨hfeed, hrun⟩ := send_runsAs hr (hl ▸ l.isLt) (hl ▸ hm) hi
  rw [hlen] at hrun
  obtain ⟨-, ha, -⟩ := hr
  exact ⟨fun k hk => hfeed.presents_nothing (hlen ▸ hk), hrun.trans (exec_send (by exact ha) o n st hl hm)⟩

/-- Settles O22: the bytes are the COMMAND executed. -/
theorem commandIsDischarged : Obligations.CommandIsDischarged := by
  refine ⟨fun c n s ha => exec_command_message ha c n, fun c n rest s hr hi => ?_⟩
  obtain ⟨hfeed, hrun⟩ := command_runsAs (c := c) (n := n) hr hi
  obtain ⟨-, ha, -⟩ := hr
  exact ⟨fun k hk => hfeed.presents_nothing (Nat.lt_succ_of_le hk),
    hrun.trans (exec_command_message (by exact ha) c n)⟩

/-! ### The handler's answer -/

/-- An answer found after `n` looks in vain leads, `n` steps later, to where it leads at the first look. -/
theorem runSteps_lateAnswer {s : State} (hr : ∀ along rest, s.input ≠ .reset along :: rest)
    (hc : ∀ c x rest, s.input ≠ .port (.command c x) :: rest) (n : Nat) (l : List Answer) :
    runSteps n (takeAnswer { s with answers := List.replicate n .notYet ++ l }) =
      .next (takeAnswer { s with answers := l }) := by
  induction n with
  | zero => rfl
  | succ n ih =>
    let r := List.replicate n Answer.notYet ++ l
    let waiting : State := { s with answers := r, awaiting := true }
    have hlook : takeAnswer { s with answers := .notYet :: r } = waiting := takeAnswer_notYet rfl
    have hstep : step waiting = .next (takeAnswer { s with answers := r }) := by
      rw [step_awaiting (s := waiting) rfl hr hc]
      rfl
    rw [List.replicate_succ, List.cons_append, hlook, runSteps_next hstep, ih]

/-- A message that fits looks for its answer in a state in which its event has been presented, and does not look before,
so that state is the same whatever there is to find. -/
theorem exec_takes_answer {i : Instr} {s : State} (hwire : i.isWire = true) (hf : fitsPayload s.maxPayload i = true)
    (ha : s.abort = false) :
    ∃ t : State, t.input = s.input ∧
      ∀ l, exec i { s with answers := l } = .next (takeAnswer { t with answers := l }) := by
  obtain ⟨e, he⟩ := Option.isSome_iff_exists.mp ((eventOf_isSome i).trans hwire)
  refine ⟨State.emit { loaded i s with state := .idle, cnt := 0, pay := [] } e, by simp, fun l => ?_⟩
  rw [exec_wire (s := { s with answers := l }) he ha hf, discharge_eq]
  cases i <;> rfl

/-- Settles O25: after the discharge comes the answer, by what is there, and each look in vain is one step more. -/
theorem handlerAnswerFollowsTheEvent : Obligations.HandlerAnswerFollowsTheEvent := by
  refine ⟨fun i e s he hf ha => ⟨_, exec_wire he ha hf, discharge_state .., fun h => ?_, fun later h => ?_,
    fun later h => ?_, fun later h => ?_⟩, fun i s n l hwire hf ha hr hc => ?_⟩
  · rw [discharge_none (by simpa using h)]
    simp [ha, h]
  · rw [discharge_notYet (later := later) (by simpa using h)]
    simp [ha]
  · rw [discharge_ok (later := later) (by simpa using h)]
    simp [ha]
  · rw [discharge_fail (later := later) (by simpa using h)]
    simp
  · obtain ⟨t, hin, hexec⟩ := exec_takes_answer hwire hf ha
    exact ⟨_, hexec _, by rw [hexec, runSteps_lateAnswer (hin ▸ hr) (hin ▸ hc)]⟩

/-! ### The step that takes the last byte -/

/-- Bytes that decode begin with a tag and are not cut inside its header (R66, R69). -/
theorem decodeMessage_ok_header {b : Byte} {bs rest : List Byte} {i : Instr}
    (h : decodeMessage (b :: bs) = .ok (i, rest)) : isTag b = true ∧ msglen b 0 ≤ bs.length + 1 := by
  cases hb : isTag b with
  | false => rw [decodeMessage_illegalTag hb] at h; cases h
  | true =>
    refine ⟨rfl, Nat.le_of_not_lt fun hlt => ?_⟩
    rw [decodeMessage_shortHeader hb hlt] at h
    cases h

/-- The encoding of a well-formed message decodes to no other. -/
theorem eq_of_decode_encode {i j : Instr} {bs : List Byte} (hwf : j.wellFormed = true) (henc : encode j = .wire bs)
    (hd : decodeMessage bs = .ok (i, [])) : j = i := by
  have hj := decodeMessage_encode hwf henc []
  rw [List.append_nil, hd] at hj
  cases hj
  rfl

/-- The last byte of a field joins the three that ACC holds. -/
theorem Acc.take_three_append (a : Acc) (b : Byte) :
    a.bytes.take 3 ++ [b] = be32 (unbe32 a.b0 a.b1 a.b2 b) := by
  rw [← Acc.bytes_ofWord, Acc.ofWord_fourth]
  rfl

/-- The four header states. -/
theorem AutoState.header_cases {a : AutoState} (h : a.isHeader = true) :
    a = .readObjectId ∨ a = .readInstanceNo ∨ a = .readStart ∨ a = .readLength := by
  cases a <;> simp [AutoState.isHeader] at h ⊢

/-- In a header the bytes consumed are the tag, four for each field before the one STATE stands for, and CNT of that. -/
theorem fetchedBytes_header {s : State} (hs : s.state.isHeader = true) (hc : s.cnt < 4) :
    ∃ bs, fetchedBytes s = s.tag :: bs ∧ bs.length = 4 * (s.state.number - 1) + s.cnt.toNat := by
  have hlt : s.cnt.toNat < 4 := hc
  have htake : (s.acc.bytes.take s.cnt.toNat).length = s.cnt.toNat :=
    List.length_take_of_le (Nat.le_of_lt hlt)
  rcases AutoState.header_cases hs with h | h | h | h <;>
    simp only [fetchedBytes, h] <;> exact ⟨_, rfl, by simp [AutoState.number, htake, ← Nat.add_assoc]⟩

section
variable {s : State} {b : Byte} {rest : List Event} {i : Instr} (h : s.Inv)
  (hd : decodeMessage (fetchedBytes s ++ [b]) = .ok (i, []))
include h hd

/-- Only at the end of its header can a message end in a header state. -/
theorem msglen_le_of_decode (hs : s.state.isHeader = true) :
    msglen s.tag 0 ≤ 4 * (s.state.number - 1) + s.cnt.toNat + 2 := by
  obtain ⟨hc, -⟩ := h.header hs
  obtain ⟨bs, hbs, hlen⟩ := fetchedBytes_header hs hc
  rw [hbs, List.cons_append] at hd
  obtain ⟨-, hle⟩ := decodeMessage_ok_header hd
  rw [List.length_append, hlen] at hle
  exact hle

variable (hi : s.input = .port (.byte b) :: rest)
include hi

/-- The message that ends with instanceNo is a COMMAND. -/
theorem step_decoded_instanceNo (hs : s.state = .readInstanceNo) :
    step s = exec i { s with input := rest, pos := s.pos + 1 } := by
  have hhead : s.state.isHeader = true := by rw [hs]; rfl
  obtain ⟨hc, -, -, -, ha, hw⟩ := h.header hhead
  have hlt : s.cnt.toNat < 4 := hc
  obtain ⟨h9, h17⟩ := msglen_ge s.tag
  have hle : msglen s.tag 0 ≤ s.cnt.toNat + 6 := by
    have hle := msglen_le_of_decode h hd hhead
    rw [hs, show AutoState.readInstanceNo.number = 2 from rfl] at hle
    omega
  have ht : s.tag = tagCommand := by
    by_contra ht
    have := h17 ht
    omega
  have h3 : s.cnt.toNat = 3 := by omega
  have hbytes : fetchedBytes s ++ [b] = commandBytes s.obj (unbe32 s.acc.b0 s.acc.b1 s.acc.b2 b) := by
    simp [fetchedBytes, hs, ht, h3, commandBytes, ← Acc.take_three_append]
  rw [hbytes] at hd
  obtain rfl := eq_of_decode_encode (j := .command s.obj _) rfl rfl hd
  exact step_command_last ha hw hi hs (BitVec.eq_of_toNat_eq h3) ht rfl

/-- The message that ends with the length field is a REQUEST, or a SEND whose length field is 0. -/
theorem step_decoded_length (hs : s.state = .readLength) :
    step s = exec i { s with input := rest, pos := s.pos + 1 } := by
  have hhead : s.state.isHeader = true := by rw [hs]; rfl
  obtain ⟨hc, htag, hnotCommand, -, ha, hw⟩ := h.header hhead
  have hlt : s.cnt.toNat < 4 := hc
  have hne := hnotCommand (.inr hs)
  have h3 : s.cnt.toNat = 3 := by
    have hge := (msglen_ge s.tag).2 hne
    have hle := msglen_le_of_decode h hd hhead
    rw [hs, show AutoState.readLength.number = 4 from rfl] at hle
    omega
  have hcnt : s.cnt = 3 := BitVec.eq_of_toNat_eq h3
  have hbytes : fetchedBytes s ++ [b] =
      headerBytes s.tag s.obj s.inst s.start (unbe32 s.acc.b0 s.acc.b1 s.acc.b2 b) := by
    simp [fetchedBytes, hs, h3, headerBytes, ← Acc.take_three_append]
  rw [hbytes] at hd
  by_cases ht : s.tag = tagRequest
  · rw [ht] at hd
    obtain rfl := eq_of_decode_encode (j := .request s.obj s.inst s.start _) rfl rfl hd
    exact step_request_last ha hw hi hs hcnt ht rfl
  have hsend : s.tag = tagSend := by simpa [isTag, ht, hne] using htag
  by_cases hl : unbe32 s.acc.b0 s.acc.b1 s.acc.b2 b = 0
  · rw [hsend, hl] at hd
    obtain rfl := eq_of_decode_encode (j := .send s.obj s.inst s.start []) rfl rfl hd
    exact step_emptySend_last ha hw hi hs hcnt hsend hl
  · have hpos : ([] : List Byte).length < (unbe32 s.acc.b0 s.acc.b1 s.acc.b2 b).toNat :=
      Nat.pos_of_ne_zero fun h0 => hl (BitVec.eq_of_toNat_eq h0)
    rw [hsend, ← List.append_nil (headerBytes ..), decodeMessage_shortPayload _ _ _ hpos] at hd
    cases hd

/-- In a payload only the byte that makes CNT equal to LEN can end a message. -/
theorem step_decoded_data (hs : s.state = .readData) : step s = exec i { s with input := rest, pos := s.pos + 1 } := by
  obtain ⟨htag, -, hlt, -, ha, hw⟩ := h.data hs
  obtain ⟨hpay, hlen⟩ := h.payload hs
  have hbytes : fetchedBytes s ++ [b] =
      headerBytes tagSend s.obj s.inst s.start s.len ++ (s.pay.map Prod.snd ++ [b]) := by
    simp only [fetchedBytes, hs, htag, List.append_assoc]
  have hlength : (s.pay.map Prod.snd ++ [b]).length = s.cnt.toNat + 1 := by rw [List.length_append, hlen]; rfl
  rw [hbytes] at hd
  by_cases he : s.cnt.toNat + 1 = s.len.toNat
  · have hword : BitVec.ofNat 32 (s.pay.map Prod.snd ++ [b]).length = s.len := ofNat_of_eq_toNat (hlength.trans he)
    have hwf : (s.pay.map Prod.snd ++ [b]).length < 2 ^ 32 := by rw [hlength, he]; exact s.len.isLt
    rw [← hword] at hd
    obtain rfl := eq_of_decode_encode (j := .send s.obj s.inst s.start _) (decide_eq_true hwf) rfl hd
    exact step_send_last ha hw hi hs hpay (ofNat_of_eq_toNat hlen).symm (by rw [hlen, he])
  · have hshort : (s.pay.map Prod.snd ++ [b]).length < s.len.toNat := by
      rw [hlength]
      exact Nat.lt_of_le_of_ne hlt he
    rw [decodeMessage_shortPayload _ _ _ hshort] at hd
    cases hd

end

/-- Settles O44, by STATE: no message is one byte long, or ends with objectId or start. -/
theorem stepRunsTheDecodedMessage : Obligations.StepRunsTheDecodedMessage := by
  intro s b rest i h _ _ hi hd _
  have hlong := msglen_ge s.tag
  rcases AutoState.idle_or_data_or_header s.state with hs | hs | hhead
  · simp only [fetchedBytes, hs, List.nil_append] at hd
    obtain ⟨-, hle⟩ := decodeMessage_ok_header hd
    have hge := (msglen_ge b).1
    rw [List.length_nil] at hle
    omega
  · exact step_decoded_data h hd hi hs
  · obtain ⟨hc, -, hnotCommand, -⟩ := h.header hhead
    have hlt : s.cnt.toNat < 4 := hc
    have hle := msglen_le_of_decode h hd hhead
    rcases AutoState.header_cases hhead with hs | hs | hs | hs
    · rw [hs, show AutoState.readObjectId.number = 1 from rfl] at hle
      omega
    · exact step_decoded_instanceNo h hd hi hs
    · have hge := hlong.2 (hnotCommand (.inl hs))
      rw [hs, show AutoState.readStart.number = 3 from rfl] at hle
      omega
    · exact step_decoded_length h hd hi hs

/-- The last of `k + 1` bytes, behind the others. -/
theorem take_append_headD_drop {bs : List Byte} {k : Nat} (h : bs.length = k + 1) :
    bs.take k ++ [(bs.drop k).headD 0] = bs := by
  obtain ⟨b, hb⟩ := List.length_eq_one_iff.mp (show (bs.drop k).length = 1 by rw [List.length_drop]; omega)
  have hbs := List.take_append_drop k bs
  rwa [hb] at hbs ⊢

/-- A SEND placed with all its payload bytes but the last consumed. -/
theorem step_placed_payload {o n st : Word} {b : Byte} {bs : List Byte} (hlt : bs.length + 1 < 2 ^ 32) (s : State) :
    step (placeInstr (.send o n st (b :: bs)) s) =
      exec (.send o n st (b :: bs)) { s with abort := false, awaiting := false, pos := s.pos + 1 } := by
  have hpre : ((b :: bs).take bs.length).length = bs.length := by simp
  have hcnt : BitVec.ofNat 32 bs.length = BitVec.ofNat 32 ((b :: bs).take bs.length).length := by rw [hpre]
  have hlen : ((b :: bs).take bs.length).length + 1 = (BitVec.ofNat 32 (bs.length + 1)).toNat := by
    rw [hpre, toNat_ofNat_of_lt hlt]
  have hstep := step_send_last (s := placeInstr (.send o n st (b :: bs)) s) rfl rfl rfl rfl rfl hcnt hlen
  rw [take_append_headD_drop (bs := b :: bs) rfl] at hstep
  exact hstep.trans (exec_wire_sameOutside rfl rfl ⟨rfl, rfl, rfl, rfl, rfl, rfl, rfl, rfl, rfl⟩ rfl nofun)

/-- A message placed with all its bytes but the last consumed is executed by the step that takes that byte. -/
theorem step_placed_wire {i : Instr} {s : State} (hwf : i.wellFormed = true) (hwire : i.isWire = true) :
    step (placeInstr i s) = exec i { s with abort := false, awaiting := false, pos := s.pos + 1 } := by
  cases i with
  | request o n st l =>
    refine (step_request_last (s := placeInstr (.request o n st l) s) rfl rfl rfl rfl rfl rfl
      (unbe32_extract l)).trans ?_
    exact exec_wire_sameOutside rfl rfl ⟨rfl, rfl, rfl, rfl, rfl, rfl, rfl, rfl, rfl⟩ rfl nofun
  | send o n st p =>
    cases p with
    | nil =>
      refine (step_emptySend_last (s := placeInstr (.send o n st []) s) rfl rfl rfl rfl rfl rfl
        (unbe32_extract 0)).trans ?_
      exact exec_wire_sameOutside rfl rfl ⟨rfl, rfl, rfl, rfl, rfl, rfl, rfl, rfl, rfl⟩ rfl nofun
    | cons b bs => exact step_placed_payload (of_decide_eq_true hwf) s
  | command c n =>
    refine (step_command_last (s := placeInstr (.command c n) s) rfl rfl rfl rfl rfl rfl
      (unbe32_extract n)).trans ?_
    exact exec_wire_sameOutside rfl rfl ⟨rfl, rfl, rfl, rfl, rfl, rfl, rfl, rfl, rfl⟩ rfl fun _ _ _ => ⟨rfl, rfl⟩
  | _ => cases hwire

/-- A command placed at the head of the input is executed by the next step, in the state it is placed in. -/
theorem step_placed_command {i : Instr} {s : State} (hwire : i.isWire = false) : step (placeInstr i s) = exec i s := by
  cases i with
  | request | send | command => cases hwire
  | _ => exact step_run (fetch_command rfl (decodePort_encode rfl))

/-- Settles O46: the placed state is one in which the last byte of the message, or the command, is to be taken. -/
theorem placedInstructionRunsNext : Obligations.PlacedInstructionRunsNext :=
  fun _ _ hwf _ => ⟨step_placed_wire hwf, step_placed_command⟩

end Sys2Proof.Machine

/-! PROOFS. Steps and buffers (42_decoder.md, sections 4 and 6): a step takes one event and presents at most one (R136,
R154); messages in one buffer yield their events in order (R132, R133); and in PERSISTENT mode the cut into buffers does
not matter (R125, R181, R182). -/

namespace Sys2Proof.Machine

/-! ### One event at a time -/

@[simp] theorem endOfBuffer_input (s : State) : (endOfBuffer s).input = s.input := by
  unfold endOfBuffer; split <;> rfl
@[simp] theorem endOfBuffer_outputs (s : State) : (endOfBuffer s).outputs = s.outputs := by
  unfold endOfBuffer; split <;> rfl
@[simp] theorem endOfBuffer_answers (s : State) : (endOfBuffer s).answers = s.answers := by
  unfold endOfBuffer; split <;> rfl

/-- Settles O53, by what each kind of step leads to: only a look for an answer, and no input, take no event. -/
theorem stepTakesOneEvent : Obligations.StepTakesOneEvent := by
  intro s t h
  rcases step_cases h with ⟨rfl, hi, -⟩ | ⟨rfl, hw, -⟩ | ⟨along, rest, hi, rfl⟩ | ⟨rest, hi, -, rfl⟩ |
    ⟨c, x, rest, i, new, hi, -, -, rfl⟩ | ⟨b, rest, u, hi, -, hu, ⟨-, rfl, -⟩ | ⟨i, e, -, -, -, -, -, -, rfl⟩⟩
  · exact .inr ⟨rfl, .inl hi⟩
  · exact .inr ⟨takeAnswer_input s, .inr hw⟩
  · exact .inl ⟨_, hi⟩
  · exact .inl ⟨_, by simpa using hi⟩
  · exact .inl ⟨_, hi⟩
  · exact .inl ⟨_, by rw [hu.input]; exact hi⟩
  · exact .inl ⟨_, by simpa [hu.input] using hi⟩

/-- Settles O54, by what each kind of step leads to: a report of a byte, a discharge, and a look for an answer are all
that presents anything. -/
theorem stepPresentsAtMostOneEvent : Obligations.StepPresentsAtMostOneEvent := by
  intro s t h
  rcases step_cases h with ⟨rfl, -⟩ | ⟨rfl, hw, -⟩ | ⟨along, rest, -, rfl⟩ | ⟨rest, -, -, rfl⟩ |
    ⟨c, x, rest, i, new, -, -, -, rfl⟩ |
    ⟨b, rest, u, hi, hw, hu, ⟨-, rfl, hout | ⟨hb, hs, ha, hout⟩, -⟩ | ⟨i, e, -, ha, -, -, -, hout, rfl⟩⟩
  · exact .inl rfl
  · rcases takeAnswer_outputs s with hout | ⟨hout, ha⟩
    · exact .inl hout
    · exact .inr (.inr (.inr ⟨hw, ha, hout⟩))
  · exact .inl rfl
  · exact .inl (endOfBuffer_outputs _)
  · exact .inl rfl
  · exact .inl hout
  · exact .inr (.inl ⟨b, rest, hi, hb, hs, ha, hw, hout⟩)
  · refine .inr (.inr (.inl ⟨b, rest, e, hi, ha, hw, discharge_state .., ?_⟩))
    simpa [hout] using discharge_outputs e (loaded i u)

/-! ### POS is not read -/

/-- What a step that takes a byte leaves alone or only adds to. -/
theorem step_byte_frame {s t : State} {b : Byte} {rest : List Event} (hw : s.awaiting = false)
    (hi : s.input = .port (.byte b) :: rest) (h : step s = .next t) :
    t.input = rest ∧ t.encOut = s.encOut ∧ t.mode = s.mode ∧ (s.abort = true → t.abort = true) := by
  rcases step_cases h with ⟨-, h', -⟩ | ⟨-, h', -⟩ | ⟨_, _, h', -⟩ | ⟨_, h', -⟩ | ⟨_, _, _, _, _, h', -⟩ |
    ⟨c, r, u, h', -, hu, ht⟩
  · simp [h'] at hi
  · simp [h'] at hw
  · simp [h'] at hi
  · simp [h'] at hi
  · simp [h'] at hi
  · rw [hi] at h'
    cases h'
    rcases ht with ⟨-, rfl, -⟩ | ⟨i, e, -, ha, -, -, -, -, rfl⟩
    · exact ⟨hu.input, hu.encOut, hu.mode, fun ha => hu.abort.trans ha⟩
    · exact ⟨by simp [hu.input], by simp [hu.encOut], by simp [hu.mode], by simp [ha]⟩

/-- `s` with another POS. -/
def State.withPos (s : State) (p : Nat) : State := { s with pos := p }

/-- Another POS alone is the edge with the state's own input and encoder output. -/
theorem State.withEdge_eq_withPos {s : State} (p : Nat) {i : List Event} {x : List EncOutput} (hi : s.input = i)
    (hx : s.encOut = x) : s.withEdge p i x = s.withPos p := by
  subst hi hx; rfl

/-- A step does the same whatever POS is (R18, R21). -/
theorem step_withPos {s t : State} (h : step s = .next t) (p : Nat) :
    ∃ q, step (s.withPos p) = .next (t.withPos q) := by
  rcases events_cases s.input with hi | ⟨along, rest, hi⟩ | ⟨rest, hi⟩ | ⟨b, rest, hi⟩ | ⟨c, x, rest, hi⟩
  case inr.inl =>
    rw [step_taken (fetch_reset hi)] at h
    cases h
    exact ⟨0, step_taken (fetch_reset (s := s.withPos p) hi)⟩
  case inr.inr.inr.inr =>
    cases hd : decodePort c x with
    | error e => rw [step_refused (fetch_noSuchCommand hi hd)] at h; cases h
    | ok i =>
      obtain ⟨new, hnew⟩ := exec_command_fixedOutput (decodePort_isWire hd)
      rw [step_run (fetch_command hi hd), hnew] at h
      cases h
      exact ⟨p, (step_run (fetch_command (s := s.withPos p) hi hd)).trans (hnew _)⟩
  all_goals
    cases hw : s.awaiting
    case true =>
      rw [step_awaiting hw (by simp [hi]) (by simp [hi])] at h
      cases h
      refine ⟨p, ?_⟩
      rw [step_awaiting (s := s.withPos p) hw (by simp [State.withPos, hi]) (by simp [State.withPos, hi]),
        ← State.withEdge_eq_withPos p rfl rfl, takeAnswer_withEdge,
        State.withEdge_eq_withPos p (takeAnswer_input s) (takeAnswer_encOut s)]
  · rw [step_taken (fetch_noInput hi hw)] at h
    cases h
    exact ⟨p, step_taken (fetch_noInput (s := s.withPos p) hi hw)⟩
  · rw [step_taken (fetch_eob hi hw)] at h
    cases h
    refine ⟨0, ?_⟩
    rw [step_taken (fetch_eob (s := s.withPos p) hi hw)]
    cases hm : s.mode <;> simp only [endOfBuffer, State.withPos, hm] <;> rfl
  · obtain ⟨hin, henc, -⟩ := step_byte_frame hw hi h
    refine ⟨p + 1, ?_⟩
    rw [← State.withEdge_eq_withPos p hi rfl, ← State.withEdge_eq_withPos (p + 1) hin henc]
    exact step_byte_withEdge hw hi h p rest s.encOut

/-- The first step of a run that reaches a state, and the rest of it. -/
theorem runSteps_succ_next {n : Nat} {s t : State} (h : runSteps (n + 1) s = .next t) :
    ∃ u, step s = .next u ∧ runSteps n u = .next t := by
  rw [runSteps_succ] at h
  split at h
  next u hu => exact ⟨u, hu, h⟩
  all_goals cases h

/-- A run does the same whatever POS is. -/
theorem runSteps_withPos {n : Nat} {s t : State} (h : runSteps n s = .next t) (p : Nat) :
    ∃ q, runSteps n (s.withPos p) = .next (t.withPos q) := by
  induction n generalizing s p with
  | zero => cases h; exact ⟨p, rfl⟩
  | succ n ih =>
    obtain ⟨u, hu, hrun⟩ := runSteps_succ_next h
    obtain ⟨q, hq⟩ := step_withPos hu p
    rw [runSteps_next hq]
    exact ih hrun q

/-! ### Bytes that are taken and nothing behind them -/

/-- A run takes events from the front of the input and adds none. -/
theorem runSteps_input_length {n : Nat} {s t : State} (h : runSteps n s = .next t) :
    t.input.length ≤ s.input.length := by
  refine runSteps_keeps (P := fun u => u.input.length ≤ s.input.length) (fun u v hu hstep => ?_) le_rfl h
  rcases stepTakesOneEvent u v hstep with ⟨e, hi⟩ | ⟨hi, -⟩
  · rw [hi] at hu
    exact Nat.le_of_succ_le hu
  · rw [hi]
    exact hu

/-- An event taken from the front of bytes is one of them, unless it is taken from what stands behind them. -/
theorem taken_from_bytes {bs : List Byte} {rest later : List Event} {e : Event} (h : bytesIn bs ++ rest = e :: later)
    (hlen : rest.length ≤ later.length) : ∃ b cs, bs = b :: cs ∧ e = .port (.byte b) := by
  cases bs with
  | nil =>
    have := congrArg List.length h
    simp [bytesIn] at this
    omega
  | cons b cs =>
    cases h
    exact ⟨b, cs, rfl, rfl⟩

/-- A step on bytes that takes none of the events behind them looks for an answer, finds nothing to do, or takes the
first byte. -/
theorem step_onBytes {s u : State} {bs : List Byte} {rest : List Event} (hi : s.input = bytesIn bs ++ rest)
    (h : step s = .next u) (hlen : rest.length ≤ u.input.length) :
    (s.awaiting = true ∧ u = takeAnswer s) ∨ (s.awaiting = false ∧ (u = s ∨ ∃ b cs, bs = b :: cs)) := by
  rcases step_cases h with ⟨rfl, -, hw⟩ | ⟨rfl, hw, -⟩ | ⟨along, r, hin, rfl⟩ | ⟨r, hin, -, rfl⟩ |
    ⟨c, x, r, i, new, hin, -, -, rfl⟩ | ⟨b, r, v, hin, hw, -⟩
  · exact .inr ⟨hw, .inl rfl⟩
  · exact .inl ⟨hw, rfl⟩
  · obtain ⟨_, _, _, he⟩ := taken_from_bytes (hi ▸ hin) hlen
    cases he
  · obtain ⟨_, _, _, he⟩ := taken_from_bytes (hi ▸ hin) (by simpa using hlen)
    cases he
  · obtain ⟨_, _, _, he⟩ := taken_from_bytes (hi ▸ hin) hlen
    cases he
  · obtain ⟨hin', -⟩ := step_byte_frame hw hin h
    obtain ⟨b', cs, hbs, -⟩ := taken_from_bytes (hi ▸ hin) (hin' ▸ hlen)
    exact .inr ⟨hw, .inr ⟨b', cs, hbs⟩⟩

/-- Looking for an answer leaves ABORT set (R128). -/
theorem takeAnswer_abort {s : State} (ha : s.abort = true) : (takeAnswer s).abort = true := by
  rcases takeAnswer_cases s with ⟨-, h⟩ | ⟨later, -, h⟩ | ⟨later, -, h⟩ | ⟨later, -, h⟩ <;> rw [h]
  · exact ha
  · exact ha
  · exact ha

/-- Nothing but the events behind the bytes clears ABORT (R149). -/
theorem runSteps_onBytes_abort {n : Nat} {s t : State} {bs : List Byte} {rest : List Event}
    (hi : s.input = bytesIn bs ++ rest) (ha : s.abort = true) (h : runSteps n s = .next t) (ht : t.input = rest) :
    t.abort = true := by
  induction n generalizing s bs with
  | zero => cases h; exact ha
  | succ n ih =>
    obtain ⟨u, hu, hrun⟩ := runSteps_succ_next h
    rcases step_onBytes hi hu (ht ▸ runSteps_input_length hrun) with ⟨-, rfl⟩ | ⟨hw, rfl | ⟨b, cs, rfl⟩⟩
    · exact ih (by simpa using hi) (takeAnswer_abort ha) hrun
    · exact ih hi ha hrun
    · obtain ⟨hin, -, -, habort⟩ := step_byte_frame hw hi hu
      exact ih hin (habort ha) hrun

/-- So a run that ends with ABORT 0 has it 0 throughout. -/
theorem abort_clear_onBytes {n : Nat} {s t : State} {bs : List Byte} {rest : List Event}
    (hi : s.input = bytesIn bs ++ rest) (h : runSteps n s = .next t) (ht : t.input = rest) (hta : t.abort = false) :
    s.abort = false := by
  rw [Bool.eq_false_iff]
  intro ha
  simp [runSteps_onBytes_abort hi ha h ht] at hta

/-! ### Buffers in PERSISTENT mode -/

/-- In PERSISTENT mode `EOB` clears ABORT and POS alone (R125). -/
theorem step_persistent_eob {s : State} {rest : List Event} (hm : s.mode = .persistent) (hw : s.awaiting = false)
    (hi : s.input = .port .eob :: rest) : step s = .next { s with input := rest, abort := false, pos := 0 } := by
  rw [step_taken (fetch_eob hi hw), endOfBuffer, hm]
  rfl

/-- `s` with another POS, and with these buffers to come in place of their bytes. -/
def State.cut (s : State) (p : Nat) (bufs : List (List Byte)) (rest : List Event) : State :=
  s.withEdge p (bufs.flatMap bufferIn ++ rest) s.encOut

/-- While an answer is awaited, a buffer to come waits as its bytes do (R33). -/
theorem step_cut_awaiting {s : State} (hw : s.awaiting = true) (p : Nat) (buf : List Byte) (bufs : List (List Byte))
    (rest : List Event) : step (s.cut p (buf :: bufs) rest) = .next ((takeAnswer s).cut p (buf :: bufs) rest) := by
  have hhead : ∃ e later, (s.cut p (buf :: bufs) rest).input = .port e :: later ∧ ∀ c x, e ≠ .command c x := by
    cases buf with
    | nil => exact ⟨.eob, _, rfl, nofun⟩
    | cons b cs => exact ⟨.byte b, _, rfl, nofun⟩
  obtain ⟨e, later, hin, hcommand⟩ := hhead
  rw [step_awaiting (s := s.cut p (buf :: bufs) rest) hw (by simp [hin]) (by simp [hin, hcommand])]
  simp only [State.cut, takeAnswer_withEdge, takeAnswer_encOut]

/-- With ABORT 0 the end of a buffer is a step that changes nothing but POS (R125). -/
theorem step_cut_eob {s : State} (hm : s.mode = .persistent) (ha : s.abort = false) (hw : s.awaiting = false) (p : Nat)
    (bufs : List (List Byte)) (rest : List Event) : step (s.cut p ([] :: bufs) rest) = .next (s.cut 0 bufs rest) := by
  rw [step_persistent_eob (s := s.cut p ([] :: bufs) rest) (rest := bufs.flatMap bufferIn ++ rest) hm hw rfl]
  simp only [State.cut, State.withEdge, ha]

/-- A byte does the same in a buffer. -/
theorem step_cut_byte {s u : State} {b : Byte} {later : List Event} (hw : s.awaiting = false)
    (hi : s.input = .port (.byte b) :: later) (h : step s = .next u) (p : Nat) (cs : List Byte)
    (bufs : List (List Byte)) (rest : List Event) :
    step (s.cut p ((b :: cs) :: bufs) rest) = .next (u.cut (p + 1) (cs :: bufs) rest) := by
  obtain ⟨-, henc, -⟩ := step_byte_frame hw hi h
  rw [State.cut, State.cut, henc]
  exact step_byte_withEdge hw hi h p _ s.encOut

/-- The bytes cut into buffers in any way lead, in a step more for each buffer, to where they lead uncut (R125, R181).
The two runs go together: a look for an answer and a byte are a step of both, an `EOB` is a step of the cut one. -/
theorem runSteps_cut {n : Nat} {bufs : List (List Byte)} {rest : List Event} {s t : State} (p : Nat)
    (hm : s.mode = .persistent) (ha : s.abort = false) (hi : s.input = bytesIn bufs.flatten ++ rest)
    (hrun : runSteps n s = .next t) (hta : t.abort = false) (htw : t.awaiting = false) (hti : t.input = rest) :
    ∃ q, runSteps (n + bufs.length) (s.cut p bufs rest) = .next (t.withPos q) := by
  match bufs with
  | [] =>
    have hrest : s.input = rest := hi
    have huncut : s.cut p [] rest = s.withPos p := State.withEdge_eq_withPos p hrest rfl
    rw [huncut]
    exact runSteps_withPos hrun p
  | buf :: bufs =>
    match hw : s.awaiting, n, buf with
    | true, 0, _ => cases hrun; simp [hw] at htw
    | true, n + 1, buf =>
      obtain ⟨u, hu, hrun⟩ := runSteps_succ_next hrun
      obtain ⟨-, rfl⟩ := (step_onBytes hi hu (hti ▸ runSteps_input_length hrun)).resolve_right (by simp [hw])
      have hin := (takeAnswer_input s).trans hi
      obtain ⟨q, hq⟩ := runSteps_cut p ((takeAnswer_mode s).trans hm) (abort_clear_onBytes hin hrun hti hta) hin hrun
        hta htw hti
      exact ⟨q, by rw [Nat.add_right_comm, runSteps_next (step_cut_awaiting hw p buf bufs rest), hq]⟩
    | false, n, [] =>
      obtain ⟨q, hq⟩ := runSteps_cut (bufs := bufs) 0 hm ha hi hrun hta htw hti
      exact ⟨q, (runSteps_next (step_cut_eob hm ha hw p bufs rest)).trans hq⟩
    | false, 0, b :: cs =>
      cases hrun
      have hlen := congrArg List.length (hi.symm.trans hti)
      simp [bytesIn] at hlen
      omega
    | false, n + 1, b :: cs =>
      obtain ⟨u, hu, hrun⟩ := runSteps_succ_next hrun
      obtain ⟨hin, -, hmode, -⟩ := step_byte_frame hw hi hu
      obtain ⟨q, hq⟩ := runSteps_cut (bufs := cs :: bufs) (p + 1) (hmode.trans hm)
        (abort_clear_onBytes hin hrun hti hta) hin hrun hta htw hti
      refine ⟨q, ?_⟩
      rw [Nat.add_right_comm, runSteps_next (step_cut_byte hw hi hu p cs bufs rest)]
      exact hq
termination_by n + bufs.length

/-- Settles O39: the run on the bytes alone, cut. -/
theorem persistentBuffersConcatenate : Obligations.PersistentBuffersConcatenate :=
  ⟨fun _ _ => step_persistent_eob, fun bufs rest s _ _ hm ha _ hta htw hti hrun =>
    runSteps_cut (s := { s with input := bytesIn bufs.flatten ++ rest }) s.pos hm ha rfl hrun hta htw hti⟩

/-! ### Messages in one buffer -/

/-- What has a handler event is presented as bytes. -/
theorem encode_eq_wireBytes {m : Instr} {e : HandlerEvent} (he : eventOf m = some e) :
    encode m = .wire (wireBytes m) := by
  cases m with
  | request | send | command => rfl
  | _ => cases he

/-- A message whose event is answered `ok`: the event is presented, and the decoder is ready for the next one. -/
theorem run_message_ok {m : Instr} {e : HandlerEvent} {s : State} {rest : List Event} {later : List Answer}
    (he : eventOf m = some e) (hwf : m.wellFormed = true) (hfits : fitsPayload s.maxPayload m = true) (hr : s.Ready)
    (hi : s.input = bytesIn (wireBytes m) ++ rest) (hans : s.answers = .ok :: later) :
    ∃ t, runSteps (wireBytes m).length s = .next t ∧ t.outputs = s.outputs ++ [.event e] ∧ t.Ready ∧ t.input = rest ∧
      t.answers = later ∧ t.maxPayload = s.maxPayload := by
  obtain ⟨-, hrun⟩ := message_runsAs hwf (encode_eq_wireBytes he) hfits hr hi
  obtain ⟨-, ha, -⟩ := hr
  rw [exec_wire he (by exact ha) (by exact hfits), discharge_ok (later := later) (by simpa using hans)] at hrun
  exact ⟨_, hrun, by simp, ⟨rfl, by simpa using ha, rfl⟩, by simp, rfl, by simp⟩

/-- Messages whose events are all answered `ok` present them in order (R133). -/
theorem run_messages_ok {ms : List Instr} {s : State} {rest : List Event} {later : List Answer}
    (hms : ∀ m ∈ ms, m.isWire = true ∧ m.wellFormed = true ∧ fitsPayload s.maxPayload m = true) (hr : s.Ready)
    (hi : s.input = bytesIn (ms.flatMap wireBytes) ++ rest) (hans : s.answers = List.replicate ms.length .ok ++ later) :
    ∃ t, runSteps (ms.flatMap wireBytes).length s = .next t ∧
      t.outputs = s.outputs ++ (ms.filterMap eventOf).map .event ∧ t.Ready ∧ t.input = rest ∧ t.answers = later := by
  induction ms generalizing s with
  | nil => exact ⟨s, rfl, by simp, hr, hi, hans⟩
  | cons m ms ih =>
    obtain ⟨⟨hwire, hwf, hfits⟩, hms⟩ := List.forall_mem_cons.mp hms
    obtain ⟨e, he⟩ := Option.isSome_iff_exists.mp ((eventOf_isSome m).trans hwire)
    rw [List.flatMap_cons, bytesIn_append, List.append_assoc] at hi
    obtain ⟨u, hrun, hout, hready, hin, hlater, hmax⟩ := run_message_ok he hwf hfits hr hi hans
    obtain ⟨t, hrun', hout', hready', hin', hlater'⟩ := ih (hmax ▸ hms) hready hin hlater
    refine ⟨t, ?_, ?_, hready', hin', hlater'⟩
    · rw [List.flatMap_cons, List.length_append, runSteps_add hrun, hrun']
    · simp [hout', hout, he]

/-- `EOB` between messages leaves the decoder ready, in either mode (R124, R125). -/
theorem step_eob_ready {s : State} {rest : List Event} (hr : s.Ready) (hi : s.input = .port .eob :: rest) :
    ∃ t, step s = .next t ∧ t.outputs = s.outputs ∧ t.Ready ∧ t.input = rest ∧ t.answers = s.answers := by
  obtain ⟨hs, -, hw⟩ := hr
  have hready : (endOfBuffer { s with input := rest }).Ready := by
    unfold endOfBuffer
    split
    · exact ⟨rfl, rfl, hw⟩
    · exact ⟨hs, rfl, hw⟩
  exact ⟨_, step_taken (fetch_eob hi hw), by simp, hready, by simp, by simp⟩

/-- Settles O28: the messages' bytes, and then the one `EOB`, or the cut of `PersistentBuffersConcatenate`. -/
theorem concatenatedMessagesYieldTheirEvents : Obligations.ConcatenatedMessagesYieldTheirEvents := by
  intro ms s rest later hms hr hans
  refine ⟨fun hi => ?_, fun bufs hm hbufs hi => ?_⟩
  · rw [bufferIn, List.append_assoc] at hi
    obtain ⟨u, hrun, hout, hready, hin, hlater⟩ := run_messages_ok hms hr hi hans
    obtain ⟨t, hstep, hout', hready', hin', hlater'⟩ := step_eob_ready hready hin
    exact ⟨t, (runSteps_succ_last hrun).trans hstep, hout'.trans hout, hready', hin', hlater'.trans hlater⟩
  · let uncut : State := { s with input := bytesIn bufs.flatten ++ rest }
    obtain ⟨t, hrun, hout, hready, hin, hlater⟩ := run_messages_ok (s := uncut) hms hr (by rw [← hbufs]) hans
    obtain ⟨-, hcut⟩ := persistentBuffersConcatenate
    obtain ⟨-, ha, hw⟩ := hr
    have ⟨_, hta, htw⟩ := hready
    rw [← hbufs] at hrun
    obtain ⟨p, hp⟩ := hcut bufs rest s t _ hm ha hw hta htw hin hrun
    rw [← hi] at hp
    exact ⟨_, hp, hout, hready, hin, hlater⟩

/-! ### What the encoder builds -/

/-- One message in a buffer. -/
theorem run_buffer_ok {m : Instr} {e : HandlerEvent} (he : eventOf m = some e) (hwf : m.wellFormed = true) {s : State}
    {rest : List Event} {later : List Answer} (hfits : fitsPayload s.maxPayload m = true) (hr : s.Ready)
    (hi : s.input = bufferIn (wireBytes m) ++ rest) (hans : s.answers = .ok :: later) :
    ∃ t, runSteps ((wireBytes m).length + 1) s = .next t ∧ t.outputs = s.outputs ++ [.event e] ∧ t.Ready ∧
      t.input = rest ∧ t.answers = later := by
  have hwire : m.isWire = true := by rw [← eventOf_isSome, he]; rfl
  obtain ⟨hone, -⟩ := concatenatedMessagesYieldTheirEvents [m] s rest later (by simp [hwire, hwf, hfits]) hr hans
  simpa [he] using hone (by simpa using hi)

/-- Settles O27: the buffer is the encoding of the message with the same values. -/
theorem encodedBuffersRoundTrip : Obligations.EncodedBuffersRoundTrip := by
  obtain ⟨hrequest, -⟩ := encRequestReturnsItsBuffer
  obtain ⟨hsend, -⟩ := encSendReturnsItsBuffer
  obtain ⟨hcommand, -⟩ := encCommandReturnsItsBuffer
  refine ⟨fun o n st l e => ⟨_, (hrequest o n st l e).1, fun s rest later hr hi hans => ?_⟩,
    fun o n st p e hp => ?_, fun c n e => ⟨_, (hcommand c n e).1, fun s rest later hr hi hans => ?_⟩⟩
  · exact run_buffer_ok (m := .request o n st l) rfl rfl rfl hr hi hans
  · have hl : p.length = (BitVec.ofNat 32 p.length).toNat := (toNat_ofNat_of_lt hp).symm
    refine ⟨_, (hsend o n st _ p e hl).1, fun s rest later hr hfits hi hans => ?_⟩
    exact run_buffer_ok (m := .send o n st p) rfl (decide_eq_true hp) (decide_eq_true hfits) hr hi hans
  · exact run_buffer_ok (m := .command c n) rfl rfl rfl hr hi hans

end Sys2Proof.Machine

/-! PROOFS. What a failed handler costs (60_exceptions.md): after HandlerFailure the rest of the buffer is discarded byte
by byte, and its end leaves the decoder ready for the next one (R129, R149, R178). -/

namespace Sys2Proof.Machine

/-- A buffer is discarded between messages: STATE is IDLE, and the answer that failed is no longer awaited (R128). -/
theorem State.Inv.discarding {s : State} (h : s.Inv) (ha : s.abort = true) :
    s.state = .idle ∧ s.awaiting = false := by
  obtain ⟨-, -, -, -, -, habort, hwait⟩ := h
  exact ⟨habort ha, Bool.eq_false_iff.mpr fun hw => by simp [(hwait hw).2] at ha⟩

/-- While ABORT is set, bytes are taken one step each and change POS alone (R129). -/
theorem run_discarded {s : State} {bs : List Byte} {rest : List Event} (ha : s.abort = true) (hw : s.awaiting = false)
    (hi : s.input = bytesIn bs ++ rest) :
    runSteps bs.length s = .next { s with input := rest, pos := s.pos + bs.length } := by
  induction bs generalizing s with
  | nil =>
    cases hi
    rfl
  | cons b bs ih =>
    have hstep := abortDiscardsBytes s b (bytesIn bs ++ rest) ha hw hi
    have htail := ih (s := { s with input := bytesIn bs ++ rest, pos := s.pos + 1 }) ha hw rfl
    rw [List.length_cons, runSteps_next hstep, htail, Nat.add_assoc, Nat.add_comm 1]

@[simp] theorem endOfBuffer_pos (s : State) : (endOfBuffer s).pos = 0 := by
  unfold endOfBuffer; split <;> rfl

/-- In IDLE the end of a buffer leaves the decoder ready in either mode, whether ABORT was set or not (R124, R125,
R149). -/
theorem endOfBuffer_ready {s : State} (hs : s.state = .idle) (hw : s.awaiting = false) : (endOfBuffer s).Ready := by
  unfold endOfBuffer
  split
  · exact ⟨rfl, rfl, hw⟩
  · exact ⟨hs, rfl, hw⟩

/-- Settles O56: the bytes are discarded, and the `EOB` behind them is taken in IDLE. -/
theorem failedHandlerCostsTheBuffer : Obligations.FailedHandlerCostsTheBuffer := by
  intro s bs rest hinv ha hi
  obtain ⟨hs, hw⟩ := hinv.discarding ha
  rw [bufferIn, List.append_assoc] at hi
  have hbytes := run_discarded ha hw hi
  have heob := (runSteps_succ_last hbytes).trans (step_taken (fetch_eob rfl hw))
  exact ⟨_, heob, endOfBuffer_ready hs hw, by simp, by simp, by simp, by simp⟩

end Sys2Proof.Machine

/-! PROOFS. Reset and hazards (70_reset_and_hazards.md): what `RESET` leaves (R170, R147), a `RESET` that overtakes the
handler's answer (R172, R182), and a message cut by the end of a LEGACY buffer (R174, R135). -/

namespace Sys2Proof.Machine

/-! ### `RESET` -/

/-- Settles O40: a `RESET` at the head of the input is taken in every state, and its step is `resetEvent`. -/
theorem resetEventLeavesAFreshDecoder : Obligations.ResetEvent :=
  fun _ _ _ hi => ⟨_, step_taken (fetch_reset hi), rfl, rfl, rfl, rfl, rfl, rfl, rfl, rfl, rfl, rfl, rfl, rfl, rfl⟩

/-! ### `RESET` before the answer -/

/-- The bytes of a message that fits end in the discharge of its event, whatever the handler answers (R120). -/
theorem run_message_discharge {m : Instr} {e : HandlerEvent} {s : State} {rest : List Event} (he : eventOf m = some e)
    (hwf : m.wellFormed = true) (hfits : fitsPayload s.maxPayload m = true) (hr : s.Ready)
    (hi : s.input = bytesIn (wireBytes m) ++ rest) :
    runSteps (wireBytes m).length s =
      .next (discharge e (loaded m { s with pos := s.pos + (wireBytes m).length, input := rest })) := by
  obtain ⟨-, hrun⟩ := message_runsAs hwf (encode_eq_wireBytes he) hfits hr hi
  obtain ⟨-, ha, -⟩ := hr
  exact hrun.trans (exec_wire he (by exact ha) (by exact hfits))

/-- A `RESET` behind the bytes of a message leaves the decoder ready with the event presented and `MODE` sampled,
although the event is not answered yet (R172). -/
theorem run_message_reset {m : Instr} {e : HandlerEvent} {s : State} {along : Option PortEvent} {rest : List Event}
    {later : List Answer} (he : eventOf m = some e) (hwf : m.wellFormed = true)
    (hfits : fitsPayload s.maxPayload m = true) (hr : s.Ready)
    (hi : s.input = bytesIn (wireBytes m) ++ .reset along :: rest) (hans : s.answers = .notYet :: later) :
    ∃ t, runSteps ((wireBytes m).length + 1) s = .next t ∧ t.outputs = s.outputs ++ [.event e] ∧ t.Ready ∧
      t.mode = s.modeInput ∧ t.input = rest ∧ t.answers = later ∧ t.maxPayload = s.maxPayload := by
  have hrun := run_message_discharge he hwf hfits hr hi
  rw [discharge_notYet (later := later) (by simpa using hans)] at hrun
  have hreset := runSteps_succ_last hrun
  rw [step_taken (fetch_reset (along := along) (rest := rest) (by simp))] at hreset
  exact ⟨_, hreset, by simp, ⟨rfl, rfl, rfl⟩, by simp, rfl, rfl, by simp⟩

/-- Settles O60: the `RESET` leaves the decoder ready, so the second message is discharged as any other, and its look
finds the answer meant for it. -/
theorem resetOvertakesTheAnswer : Obligations.ResetOvertakesTheAnswer := by
  intro i j e f s along rest later hwfi hwfj hfitsi hfitsj hei hej hr hi
  refine ⟨fun hans => ?_, fun hans => ?_⟩
  all_goals
    obtain ⟨u, hu, hout, hready, hmode, hin, hlater, hmax⟩ := run_message_reset hei hwfi hfitsi hr hi hans
    have hrun := (runSteps_add hu).trans (run_message_discharge hej hwfj (hmax ▸ hfitsj) hready hin)
    obtain ⟨-, ha, -⟩ := hready
  · rw [discharge_ok (later := later) (by simpa using hlater)] at hrun
    exact ⟨_, hrun, by simp [hout], ⟨rfl, by simpa using ha, rfl⟩, by simpa using hmode, by simp, rfl⟩
  · rw [discharge_fail (later := later) (by simpa using hlater)] at hrun
    exact ⟨_, hrun, by simp [hout], rfl, rfl, by simpa using hmode, by simp, rfl⟩

/-! ### A message cut by the end of the buffer -/

/-- Bytes that present nothing before their last, cut before it, are taken in front of any other input as they are
uncut (POS left open, which no rule reads), and leave `MODE` alone. -/
theorem Feeds.run_cut {s t : State} {bs : List Byte} {rest : List Event} (h : Feeds s bs rest) {k : Nat}
    (hk : k < bs.length) (hrun : runSteps k s = .next t) (cut : List Event) :
    t.mode = s.mode ∧
    ∃ p, runSteps k { s with input := bytesIn (bs.take k) ++ cut } = .next (t.withEdge p cut t.encOut) := by
  induction k generalizing t cut with
  | zero =>
    cases hrun
    exact ⟨rfl, s.pos, rfl⟩
  | succ k ih =>
    have hk' : k < bs.length := by omega
    obtain ⟨u, hu, hq, hin⟩ := h k hk'
    obtain ⟨humode, p, hp⟩ := ih hk' hu (.port (.byte bs[k]) :: cut)
    rw [List.drop_eq_getElem_cons hk', bytesIn_cons] at hin
    have hstep : step u = .next t := (runSteps_succ_last hu).symm.trans hrun
    obtain ⟨-, henc, hmode, -⟩ := step_byte_frame hq.awaiting hin hstep
    refine ⟨hmode.trans humode, p + 1, ?_⟩
    have htake : bytesIn (bs.take (k + 1)) ++ cut = bytesIn (bs.take k) ++ .port (.byte bs[k]) :: cut := by
      rw [List.take_succ_eq_append_getElem hk', bytesIn_append, List.append_assoc]
      rfl
    rw [htake, runSteps_succ_last hp, henc]
    exact step_byte_withEdge hq.awaiting hin hstep p cut u.encOut

/-- Settles O57: the bytes before the cut present nothing, as they would uncut, and the `EOB` leaves the decoder
fresh. -/
theorem splitMessageIsLostInLegacy : Obligations.SplitMessageIsLostInLegacy := by
  intro i bs k rest s hwf henc hfits hk hm hr hi
  obtain ⟨hfeed, -⟩ := message_runsAs (s := { s with input := bytesIn bs ++ [] }) hwf henc hfits hr rfl
  obtain ⟨t, hrun, hq, -⟩ := hfeed k hk
  obtain ⟨hmode, p, hcut⟩ := hfeed.run_cut hk hrun (.port .eob :: rest)
  obtain ⟨u, hstep, hidle, -, habort, -, -, hout, -, -, hin, hwait, -⟩ :=
    legacyEndOfBuffer (t.withEdge p (.port .eob :: rest) t.encOut) rest (hmode.trans hm) hq.awaiting rfl
  have hs : s = { s with input := bytesIn (bs.take k) ++ .port .eob :: rest } := by
    rw [bufferIn, List.append_assoc] at hi
    exact hi ▸ rfl
  rw [hs]
  exact ⟨u, (runSteps_succ_last hcut).trans hstep, ⟨hidle, habort, hwait⟩, hout.trans hq.outputs, hin⟩

end Sys2Proof.Machine
